-- ==== Sys2Proof/Word.lean ====
section
/-! DEFINITION. The bit-vector types of the emul8 core, each as wide as the manual makes it.
Widths: spec/00_scope.md R6, R9, R10; spec/30_encoding.md R81. All values are unsigned (R10). -/

namespace Sys2Proof

/-- A memory byte, a V register or a timer (R6: 8 bits). -/
abbrev Byte := BitVec 8

/-- An instruction word (R81), and the width of the index register I (R23). -/
abbrev Word := BitVec 16

/-- A program counter value, a stack entry or the NNN field (R24, R27, R81): 12 bits. -/
abbrev Addr := BitVec 12

/-- The 4-bit X or Y field, which names one of V0 to VF (R20, R81). -/
abbrev Reg := BitVec 4

/-- The 4-bit N field (R81). -/
abbrev Nibble := BitVec 4

/-- VF, the register that doubles as the flag (R6 VF_INDEX, R21). -/
abbrev VF : Reg := 15#4

/-- MEM_SIZE, the number of addressable bytes (R6, R50). -/
abbrev memSize : Nat := 4096

end Sys2Proof
end

