-- ==== Sys2Proof/Config.lean ====
section
/-! DEFINITION. What an implementation fixes (spec/00_scope.md R6, R7, R8) and the one value that nothing fixes,
the random byte (spec/41_register_alu.md R145). The parameters stand in State as plain data, so that every
statement over all states holds for every admitted choice of them; their defaults are in Machine/Defaults.lean. -/

namespace Sys2Proof

/-- INDEX_WRAP (R7): the modulus of every write to I. -/
inductive IndexWrap where
  | mod65536
  | mod4096
  deriving DecidableEq, Repr

/-- The number INDEX_WRAP stands for (R7). -/
def IndexWrap.modulus : IndexWrap → Nat
  | .mod65536 => 65536
  | .mod4096 => 4096

/-- LOAD_OVERSIZE (R8, R264), which the manual leaves OPEN: `refuse` is what R264 asks of a model, the other two
are the manual's two readings. -/
inductive LoadOversize where
  | refuse
  | truncate
  | reject
  deriving DecidableEq, Repr

/-- FONT_BYTES (R58): the 80 bytes that reset loads at 0x000-0x04F, glyph d at 5d. -/
abbrev Font := Vector Byte 80

/-- The parameters of R7 and R8. No step and no host call changes them. -/
structure Params where
  /-- INDEX_WRAP (R7, R162). -/
  indexWrap : IndexWrap
  /-- RET_ADDS_2 (R7, R111): false is admitted only paired with a CALL that pushes pc0 + 2, and false means the pair. -/
  retAdds2 : Bool
  /-- FONT_ADDR_LOW_NIBBLE (R8, R163). -/
  fontAddrLowNibble : Bool
  /-- LOAD_OVERSIZE (R8, R264). -/
  loadOversize : LoadOversize
  /-- FONT_BYTES (R8, R58). -/
  font : Font
  deriving DecidableEq, Repr

/-- PROG_BASE (R6): where a program is loaded. -/
abbrev progBase : Nat := 0x200

/-- PROG_MAX (R6): the longest image that fits. -/
abbrev progMax : Nat := memSize - progBase

/-- The free value of the random byte: the byte of the n-th draw that no host has named (R145: "a free draw under no
law, and proofs must hold for every value"). It has no body, so nothing can be proved about its value
(notes/assumptions/1.md). -/
opaque Config.freeRnd : Nat → Byte

end Sys2Proof
end

