-- ==== Sys2Proof/Machine/HostSyntax.lean ====
section
/-! DEFINITION. The calls the host can make on the machine between steps: spec/60_exceptions.md R246 and R247. -/

namespace Sys2Proof.Machine

/-- A host call. `step` is the STEP strobe with the two inputs of that step besides the latch (R246); the rest are
the operations of R247. -/
inductive HostCall where
  /-- The driver issues one step, driving RND and TICK_EN (R246, R248). -/
  | issueStep (rnd : Byte) (tickEn : Bool)
  /-- `setKey(k, pressed)`. -/
  | setKey (k : Nat) (pressed : Bool)
  /-- `getFramebufferSnapshot()`. -/
  | getFramebufferSnapshot
  /-- `isDirty()`. -/
  | isDirty
  /-- `markClean()`. -/
  | markClean
  /-- `reset()`. -/
  | reset
  /-- `loadProgram(bytes)`: `none` is a byte source that cannot be read (R264). -/
  | loadProgram (source : Option (List Byte))
  /-- `start()`. -/
  | start
  /-- `stop()`. -/
  | stop
  /-- `pause()`. -/
  | pause
  /-- `isRunning()`. -/
  | isRunning
  deriving DecidableEq, Repr

end Sys2Proof.Machine
end

