-- ==== Sys2Proof/WellFormed.lean ====
section
/-! DEFINITION. Well-formedness. An instruction's operands are exactly as wide as their fields (Syntax.lean), so every
instruction is well formed. The host's calls carry plain numbers and byte lists, and those are checked here. -/

namespace Sys2Proof

/-- Every bit of a word is a field the instruction uses or part of its match (spec/30_encoding.md R89), and each
constructor's operands have the widths of R81: no instruction is ill formed. -/
def Instr.wellFormed : Instr → Bool := fun _ => true

namespace Machine

/-- A key number is 0 to 15 (R247). An image has at most 3584 bytes: the launch states a model admits (R264). -/
def HostCall.wellFormed : HostCall → Bool
  | .issueStep _ _ => true
  | .setKey k _ => decide (k < 16)
  | .getFramebufferSnapshot => true
  | .isDirty => true
  | .markClean => true
  | .reset => true
  | .loadProgram none => true
  | .loadProgram (some image) => decide (image.length ≤ progMax)
  | .start => true
  | .stop => true
  | .pause => true
  | .isRunning => true

end Machine
end Sys2Proof
end

