-- ==== Sys2Proof/Decode.lean ====
section
/-! DEFINITION. Decoding and encoding: spec/30_encoding.md R80 to R92. The table is R86's, row by row, and a word
selects a row exactly when its bits under the row's mask equal the row's match (R85). -/

namespace Sys2Proof

/-- OP = w[15:12] (R81). -/
def fieldOP (w : Word) : BitVec 4 := w.extractLsb' 12 4
/-- X = w[11:8] (R81). -/
def fieldX (w : Word) : Reg := w.extractLsb' 8 4
/-- Y = w[7:4] (R81). -/
def fieldY (w : Word) : Reg := w.extractLsb' 4 4
/-- N = w[3:0] (R81). -/
def fieldN (w : Word) : Nibble := w.extractLsb' 0 4
/-- NN = w[7:0] (R81). -/
def fieldNN (w : Word) : Byte := w.extractLsb' 0 8
/-- NNN = w[11:0] (R81). -/
def fieldNNN (w : Word) : Addr := w.extractLsb' 0 12

/-- A row of the opcode map (R86): its match, its mask and the instruction its words are. -/
structure Row where
  pat : Word
  mask : Word
  make : Word → Instr

/-- R86 rows 1 to 9. -/
def rows0to7 : List Row :=
  [ ⟨0x00E0, 0xFFFF, fun _ => .cls⟩,
    ⟨0x00EE, 0xFFFF, fun _ => .ret⟩,
    ⟨0x1000, 0xF000, fun w => .jp (fieldNNN w)⟩,
    ⟨0x2000, 0xF000, fun w => .call (fieldNNN w)⟩,
    ⟨0x3000, 0xF000, fun w => .seImm (fieldX w) (fieldNN w)⟩,
    ⟨0x4000, 0xF000, fun w => .sneImm (fieldX w) (fieldNN w)⟩,
    ⟨0x5000, 0xF00F, fun w => .seReg (fieldX w) (fieldY w)⟩,
    ⟨0x6000, 0xF000, fun w => .ldImm (fieldX w) (fieldNN w)⟩,
    ⟨0x7000, 0xF000, fun w => .addImm (fieldX w) (fieldNN w)⟩ ]

/-- R86 rows 10 to 18, the 8xy_ family. -/
def rows8 : List Row :=
  [ ⟨0x8000, 0xF00F, fun w => .ldReg (fieldX w) (fieldY w)⟩,
    ⟨0x8001, 0xF00F, fun w => .orReg (fieldX w) (fieldY w)⟩,
    ⟨0x8002, 0xF00F, fun w => .andReg (fieldX w) (fieldY w)⟩,
    ⟨0x8003, 0xF00F, fun w => .xorReg (fieldX w) (fieldY w)⟩,
    ⟨0x8004, 0xF00F, fun w => .addReg (fieldX w) (fieldY w)⟩,
    ⟨0x8005, 0xF00F, fun w => .subReg (fieldX w) (fieldY w)⟩,
    ⟨0x8006, 0xF00F, fun w => .shr (fieldX w) (fieldY w)⟩,
    ⟨0x8007, 0xF00F, fun w => .subnReg (fieldX w) (fieldY w)⟩,
    ⟨0x800E, 0xF00F, fun w => .shl (fieldX w) (fieldY w)⟩ ]

/-- R86 rows 19 to 25. -/
def rows9toE : List Row :=
  [ ⟨0x9000, 0xF00F, fun w => .sneReg (fieldX w) (fieldY w)⟩,
    ⟨0xA000, 0xF000, fun w => .ldI (fieldNNN w)⟩,
    ⟨0xB000, 0xF000, fun w => .jpV0 (fieldNNN w)⟩,
    ⟨0xC000, 0xF000, fun w => .rnd (fieldX w) (fieldNN w)⟩,
    ⟨0xD000, 0xF000, fun w => .drw (fieldX w) (fieldY w) (fieldN w)⟩,
    ⟨0xE09E, 0xF0FF, fun w => .skp (fieldX w)⟩,
    ⟨0xE0A1, 0xF0FF, fun w => .sknp (fieldX w)⟩ ]

/-- R86 rows 26 to 34, the Fx__ family. -/
def rowsF : List Row :=
  [ ⟨0xF007, 0xF0FF, fun w => .ldVxDt (fieldX w)⟩,
    ⟨0xF00A, 0xF0FF, fun w => .ldVxK (fieldX w)⟩,
    ⟨0xF015, 0xF0FF, fun w => .ldDtVx (fieldX w)⟩,
    ⟨0xF018, 0xF0FF, fun w => .ldStVx (fieldX w)⟩,
    ⟨0xF01E, 0xF0FF, fun w => .addI (fieldX w)⟩,
    ⟨0xF029, 0xF0FF, fun w => .ldF (fieldX w)⟩,
    ⟨0xF033, 0xF0FF, fun w => .ldB (fieldX w)⟩,
    ⟨0xF055, 0xF0FF, fun w => .ldMemVx (fieldX w)⟩,
    ⟨0xF065, 0xF0FF, fun w => .ldVxMem (fieldX w)⟩ ]

/-- The opcode map of R86: 34 rows. -/
def opcodeTable : List Row := rows0to7 ++ rows8 ++ rows9toE ++ rowsF

/-- The row test of R85: `(w & mask_r) = match_r`. -/
def Row.selects (r : Row) (w : Word) : Bool := w &&& r.mask == r.pat

/-- Decode (R85): the instruction of the row the word selects; `none` is UNKNOWN (R90). -/
def decodeWord (w : Word) : Option Instr :=
  (opcodeTable.find? fun r => r.selects w).map fun r => r.make w

/-- Why bytes do not decode. -/
inductive Reject where
  /-- A word that no row selects (R90). -/
  | unknown (w : Word)
  /-- Fewer than two bytes: a decoder always consumes two (R92). -/
  | truncated
  deriving DecidableEq, Repr

/-- Decoding bytes: the first two, big-endian (R80), and the rest of the list. -/
def decode : List Byte → Except Reject (Instr × List Byte)
  | hi :: lo :: rest =>
    match decodeWord (hi ++ lo) with
    | some i => .ok (i, rest)
    | none => .error (.unknown (hi ++ lo))
  | _ => .error .truncated

/-- Format A (R88): OP, NNN. -/
def formA (op : BitVec 4) (nnn : Addr) : Word := op ++ nnn
/-- Format XK (R88): OP, X, NN. -/
def formXK (op : BitVec 4) (x : Reg) (kk : Byte) : Word := op ++ (x ++ kk)
/-- Formats XY and XYN (R88): OP, X, Y, N. -/
def formXY (op : BitVec 4) (x y : Reg) (n : Nibble) : Word := op ++ (x ++ (y ++ n))
/-- Format XS (R88): OP, X, NN = sub. -/
def formXS (op : BitVec 4) (x : Reg) (sub : Byte) : Word := op ++ (x ++ sub)

/-- The word of an instruction, from the encoding column of R86 and the layouts of R88. -/
def encode : Instr → Word
  | .cls => 0x00E0
  | .ret => 0x00EE
  | .jp nnn => formA 0x1 nnn
  | .call nnn => formA 0x2 nnn
  | .seImm x kk => formXK 0x3 x kk
  | .sneImm x kk => formXK 0x4 x kk
  | .seReg x y => formXY 0x5 x y 0x0
  | .ldImm x kk => formXK 0x6 x kk
  | .addImm x kk => formXK 0x7 x kk
  | .ldReg x y => formXY 0x8 x y 0x0
  | .orReg x y => formXY 0x8 x y 0x1
  | .andReg x y => formXY 0x8 x y 0x2
  | .xorReg x y => formXY 0x8 x y 0x3
  | .addReg x y => formXY 0x8 x y 0x4
  | .subReg x y => formXY 0x8 x y 0x5
  | .shr x y => formXY 0x8 x y 0x6
  | .subnReg x y => formXY 0x8 x y 0x7
  | .shl x y => formXY 0x8 x y 0xE
  | .sneReg x y => formXY 0x9 x y 0x0
  | .ldI nnn => formA 0xA nnn
  | .jpV0 nnn => formA 0xB nnn
  | .rnd x kk => formXK 0xC x kk
  | .drw x y n => formXY 0xD x y n
  | .skp x => formXS 0xE x 0x9E
  | .sknp x => formXS 0xE x 0xA1
  | .ldVxDt x => formXS 0xF x 0x07
  | .ldVxK x => formXS 0xF x 0x0A
  | .ldDtVx x => formXS 0xF x 0x15
  | .ldStVx x => formXS 0xF x 0x18
  | .addI x => formXS 0xF x 0x1E
  | .ldF x => formXS 0xF x 0x29
  | .ldB x => formXS 0xF x 0x33
  | .ldMemVx x => formXS 0xF x 0x55
  | .ldVxMem x => formXS 0xF x 0x65

/-- A word as the image stores it: "raw big-endian 16-bit instruction words" (R54, R92). -/
def bytesOfWord (w : Word) : List Byte := [w.extractLsb' 8 8, w.extractLsb' 0 8]

/-- An instruction's two bytes, in address order. -/
def encodeBytes (i : Instr) : List Byte := bytesOfWord (encode i)

/-- The word of `nbits` bits numbered as spec/opcode_table.json numbers them, with every bit above `nbits` zero. -/
def tableWord (nbits w : Nat) : Word := BitVec.ofNat 16 (w % 2 ^ nbits)

/-- What the decoder reads from an instruction whose bits are `w`, laid out in memory order. -/
def decodeTableWord (nbits w : Nat) : Option Instr :=
  match decode (bytesOfWord (tableWord nbits w)) with
  | .ok (i, _) => some i
  | .error _ => none

end Sys2Proof
end

