-- ==== Sys2Proof/Machine/Defaults.lean ====
section
/-! DEFINITION. The defaults of the parameters (spec/00_scope.md R7, R8; spec/20_memory.md R58). -/

namespace Sys2Proof.Machine

/-- The default FONT_BYTES: the table of R58, glyphs 0 to F in order, top row first. PRESUMED: the manual marks the
bytes as general knowledge (notes/assumptions/2.md). -/
def defaultFont : Font :=
  #v[0xF0, 0x90, 0x90, 0x90, 0xF0,
     0x20, 0x60, 0x20, 0x20, 0x70,
     0xF0, 0x10, 0xF0, 0x80, 0xF0,
     0xF0, 0x10, 0xF0, 0x10, 0xF0,
     0x90, 0x90, 0xF0, 0x10, 0x10,
     0xF0, 0x80, 0xF0, 0x10, 0xF0,
     0xF0, 0x80, 0xF0, 0x90, 0xF0,
     0xF0, 0x10, 0x20, 0x40, 0x40,
     0xF0, 0x90, 0xF0, 0x90, 0xF0,
     0xF0, 0x90, 0xF0, 0x10, 0xF0,
     0xF0, 0x90, 0xF0, 0x90, 0x90,
     0xE0, 0x90, 0xE0, 0x90, 0xE0,
     0xF0, 0x80, 0x80, 0x80, 0xF0,
     0xE0, 0x90, 0x90, 0x90, 0xE0,
     0xF0, 0x80, 0xF0, 0x80, 0xF0,
     0xF0, 0x80, 0xF0, 0x80, 0x80]

/-- Every parameter at its default (R7: INDEX_WRAP 65536, RET_ADDS_2 true; R8: FONT_ADDR_LOW_NIBBLE false, the default
FONT_BYTES; LOAD_OVERSIZE is OPEN, and R264 asks a model to refuse). -/
def defaultParams : Params :=
  { indexWrap := .mod65536, retAdds2 := true, fontAddrLowNibble := false, loadOversize := .refuse,
    font := defaultFont }

end Sys2Proof.Machine
end

