-- ==== Sys2Proof/Machine/State.lean ====
section
/-! DEFINITION. The state of the core: spec/10_state.md, with the ports of spec/60_exceptions.md R246, and the value
every field has after reset (R40). Everything is plain data. -/

namespace Sys2Proof.Machine

/-- Memory as (address, byte) pairs: addresses strictly rising and below 4096, and no entry equal to what an unlisted
address reads as (Machine/Memory.lean says what that is and what the form is). -/
abbrev Memory := List Host.Cell

/-- The framebuffer (R32): 32 rows of 64 bits. Bit px of row py is FB[px][py], and a set bit is a lit pixel. -/
abbrev Framebuffer := Vector (BitVec 64) 32

/-- The FAULT register (R35). -/
inductive FaultCode where
  | none
  | stackOverflow
  | stackUnderflow
  | keyRange
  deriving DecidableEq, Repr

/-- The host driver's RUN (R36). -/
inductive RunState where
  | stopped
  | running
  | paused
  deriving DecidableEq, Repr

/-- OUTCOME, how a step ended (R84, R246). -/
inductive StepEnd where
  | done
  | blocked
  | faulted
  deriving DecidableEq, Repr

/-- An output event (R246): DIAG carries the unknown word and its pc (R221), BEEP is the sound timer's 1 to 0 edge
(R241). -/
inductive Event where
  | diag (w : Word) (pc0 : Addr)
  | beep
  deriving DecidableEq, Repr

/-- The machine's state. -/
structure State where
  /-- V0 to VF, `x[i]` (R20). -/
  v : Vector Byte 16
  /-- The index register (R23). -/
  I : Word
  /-- The program counter (R24). -/
  pc : Addr
  /-- The stack pointer: how many entries are in use, 0 to 16 (R26). -/
  sp : Fin 17
  /-- The return-address stack (R27). -/
  stack : Vector Addr 16
  /-- The delay timer DT (R28). -/
  dt : Byte
  /-- The sound timer ST (R29). -/
  st : Byte
  /-- MEM (R31). -/
  mem : Memory
  /-- FB (R32). -/
  fb : Framebuffer
  /-- DIRTY (R33). -/
  dirty : Bool
  /-- LATCH, one flag a key (R34); a step reads it as KEY (R200). -/
  latch : Vector Bool 16
  /-- FAULT (R35). -/
  fault : FaultCode
  /-- RUN (R36). -/
  run : RunState
  /-- The OUTCOME port: how the last step ended (R246). -/
  outcome : StepEnd
  /-- The TICK_EN port's level (R243, R246). -/
  tickEn : Bool
  /-- The RND port (R145, R246): the bytes the host has named for the next draws, next first. -/
  rndIn : List Byte
  /-- The MODEL's own counter: how many bytes have been drawn; it picks the free value of a draw that the host has
  not named (notes/assumptions/1.md). -/
  draws : Nat
  /-- The DIAG and BEEP ports (R246): every event emitted so far, oldest first. -/
  events : List Event
  /-- The MODEL's own flag: a reset has happened, and since then no image was loaded and no run was started, so that
  `loadProgram` is admitted (R263). -/
  loadable : Bool
  /-- The parameters of R7 and R8. -/
  params : Params
  deriving DecidableEq, Repr

/-- Why a machine operation stops with a fault. No instruction and no step does: the manual's own faults are the FAULT
register's values, and raising one is a next state (R226). -/
inductive Fault where
  /-- The manual's LoadError (R222, R264): raised by the host call `loadProgram`, which then changes nothing. Safe:
  it is what the manual says. -/
  | loadError
  deriving DecidableEq, Repr

/-- Why the model gives no next state. -/
inductive Refusal where
  /-- Raised by exec for an instruction without a meaning. Safe. No arm of exec raises it in this model. -/
  | notModelled (mnemonic : String)
  /-- Raised by the host call `loadProgram` for an image over 3584 bytes, when LOAD_OVERSIZE is open (R264). Safe. -/
  | oversizeImage
  /-- Raised by the host call `loadProgram` while RUN = Running, or not after a reset (R263). Safe. -/
  | loadNotAdmitted
  /-- Raised by the host call `setKey` for a key number above 15, which the manual leaves to the host (R247). Safe. -/
  | noSuchKey
  /-- Raised by the host calls `start`, `stop` and `pause` from a RUN state for which R249 lists no transition. Safe. -/
  | noSuchTransition
  /-- Raised by the host call that issues a step while RUN is not Running: the driver issues none (R249). Safe. -/
  | stepNotIssued
  deriving DecidableEq, Repr

/-- Right after reset: every field at the value of R40. The fields R40 does not list are the ports and the model's own
fields, and their values are design choices (notes/assumptions/3.md, 4.md, 5.md, 6.md). -/
def State.reset : State :=
  { v := Vector.replicate 16 0
    I := 0
    pc := 0x200
    sp := 0
    stack := Vector.replicate 16 0
    dt := 0
    st := 0
    mem := []
    fb := Vector.replicate 32 0
    dirty := true
    latch := Vector.replicate 16 false
    fault := .none
    run := .stopped
    outcome := .done
    tickEn := true
    rndIn := []
    draws := 0
    events := []
    loadable := true
    params := defaultParams }

end Sys2Proof.Machine
end

