-- ==== Sys2Proof/Machine/Framebuffer.lean ====
section
/-! DEFINITION. The framebuffer's pixels and its one mutation primitive: spec/43_display.md R180, R182, R183. -/

namespace Sys2Proof.Machine

/-- FB[px mod 64][py mod 32] (R32; R180: every coordinate wraps). -/
def fbPixel (fb : Framebuffer) (px py : Nat) : Bool :=
  (fb[py % 32]'(Nat.mod_lt py (by decide))).getLsbD (px % 64)

/-- Toggle(px, py) (R180): flips the bit and answers its value before the flip. -/
def fbToggle (fb : Framebuffer) (px py : Nat) : Framebuffer × Bool :=
  let qy := py % 32
  have hy : qy < 32 := Nat.mod_lt py (by decide)
  (fb.set qy (fb[qy] ^^^ BitVec.twoPow 64 (px % 64)) hy, fbPixel fb px py)

/-- The blank framebuffer (R181). -/
def fbBlank : Framebuffer := Vector.replicate 32 0

/-- The bit of sprite byte `b` at column offset `col`: bit 7 is column 0 (R183). -/
def spriteBit (b : Byte) (col : Nat) : Bool := b.getLsbD (7 - col)

/-- Columns 0 to n - 1 of one sprite row (R182's inner loop), with the collision found so far. -/
def drawColumns (b : Byte) (vx y : Nat) : Nat → Framebuffer × Bool → Framebuffer × Bool
  | 0, acc => acc
  | col + 1, acc =>
    let acc := drawColumns b vx y col acc
    if spriteBit b col then
      let t := fbToggle acc.1 (vx + col) y
      (t.1, acc.2 || t.2)
    else acc

/-- Rows of the sprite, at vy, vy + 1, and so on (R182's outer loop): `rows` are the sprite's bytes still to draw. -/
def drawRows (vx : Nat) : Nat → List Byte → Framebuffer × Bool → Framebuffer × Bool
  | _, [], acc => acc
  | y, b :: rows, acc => drawRows vx (y + 1) rows (drawColumns b vx y 8 acc)

end Sys2Proof.Machine
end

