-- ==== Sys2Proof/Machine/Memory.lean ====
section
/-! DEFINITION. The memory list: what an unlisted address reads as, the canonical form, reading and writing a byte.
spec/20_memory.md R50 to R58; spec/10_state.md R31, R40. -/

namespace Sys2Proof.Machine

/-- What an address that no entry lists reads as: the contents after reset (R40, R261), FONT_BYTES at 0x000-0x04F and 0
elsewhere. -/
def Memory.initial (font : Font) (a : Nat) : Byte :=
  if h : a < 80 then font[a] else 0

/-- The byte at address `a` (R51, after the reduction modulo 4096). -/
def Memory.read (font : Font) : Memory → Nat → Byte
  | [], a => Memory.initial font a
  | (k, b) :: m, a => if a = k then b else Memory.read font m a

/-- The entry for `a`, put in front of a list of higher addresses; none when `b` is what `a` reads as unlisted. -/
def Memory.entry (font : Font) (a : Nat) (b : Byte) (m : Memory) : Memory :=
  if b = Memory.initial font a then m else (a, b) :: m

/-- Memory with `b` stored at address `a`, in canonical form. -/
def Memory.write (font : Font) : Memory → Nat → Byte → Memory
  | [], a, b => Memory.entry font a b []
  | (k, c) :: m, a, b =>
    if a < k then Memory.entry font a b ((k, c) :: m)
    else if a = k then Memory.entry font a b m
    else (k, c) :: Memory.write font m a b

/-- The canonical form, of a list whose addresses are at least `low`. -/
def Memory.wfFrom (font : Font) : Nat → Memory → Bool
  | _, [] => true
  | low, (k, b) :: m =>
    decide (low ≤ k) && decide (k < memSize) && decide (b ≠ Memory.initial font k) && Memory.wfFrom font (k + 1) m

/-- The canonical form: addresses strictly rising and below 4096, and no entry equal to what its address reads as
unlisted. -/
def Memory.wf (font : Font) (m : Memory) : Bool := Memory.wfFrom font 0 m

end Sys2Proof.Machine
end

