-- ==== Sys2Proof/Machine/Ops.lean ====
section
/-! DEFINITION. The operations every meaning is written over: the primitives of spec/00_scope.md R11, the stack
(spec/10_state.md R26, R27), fetching (spec/30_encoding.md R80), the three ways an instruction ends (R84), raising a
fault and the reset that clears it (spec/60_exceptions.md R226; spec/70_reset_and_hazards.md R260). -/

namespace Sys2Proof.Machine

/-- `x[i]` (R11). -/
def State.getV (s : State) (x : Reg) : Byte := s.v[x.toNat]'x.isLt

/-- `x[i] <- b` (R11). No register is hardwired (R20). -/
def State.setV (s : State) (x : Reg) (b : Byte) : State := { s with v := s.v.set x.toNat b x.isLt }

/-- `I <- n`, which writes n mod INDEX_WRAP (R11). -/
def State.setI (s : State) (n : Nat) : State := { s with I := BitVec.ofNat 16 (n % s.params.indexWrap.modulus) }

/-- `MemRead(addr, 1)`: the byte at addr mod 4096 (R11, R51). -/
def State.memRead (s : State) (addr : Nat) : Byte := Memory.read s.params.font s.mem (addr % memSize)

/-- `MemWrite(addr, 1, b)` at addr mod 4096 (R11, R51). Memory has no protection (R60). -/
def State.memWrite (s : State) (addr : Nat) (b : Byte) : State :=
  { s with mem := Memory.write s.params.font s.mem (addr % memSize) b }

/-- FB[px][py] (R11). -/
def State.pixel (s : State) (px py : Nat) : Bool := fbPixel s.fb px py

/-- `KEY[k]`: the latch as it stands when the step begins, which no instruction changes (R200). -/
def State.key (s : State) (k : Fin 16) : Bool := s.latch[k.val]

/-- `emit E` (R11). -/
def State.emit (s : State) (e : Event) : State := { s with events := s.events ++ [e] }

/-- The push of CALL (R113): `stack[sp] <- a; sp <- sp + 1`; `none` when all 16 entries are in use. -/
def State.push (s : State) (a : Addr) : Option State :=
  if h : s.sp.val < 16 then
    some { s with stack := s.stack.set s.sp.val a h, sp := ⟨s.sp.val + 1, by omega⟩ }
  else none

/-- The pop of RET (R110): `sp <- sp - 1`, then `stack[sp]`, which keeps its value (R27); `none` when no entry is in
use. -/
def State.pop (s : State) : Option (Addr × State) :=
  if h : 0 < s.sp.val then
    have hs : s.sp.val - 1 < 16 := by omega
    some (s.stack[s.sp.val - 1], { s with sp := ⟨s.sp.val - 1, by omega⟩ })
  else none

/-- The word at pc (R80): two one-byte reads, the lower address in bits 15..8. -/
def State.fetchWord (s : State) : Word := s.memRead s.pc.toNat ++ s.memRead (s.pc.toNat + 1)

/-- The state with word `w` stored where the next step fetches: an aid for loading, no operation of the machine. -/
def State.placeWord (s : State) (w : Word) : State :=
  (s.memWrite s.pc.toNat (w.extractLsb' 8 8)).memWrite (s.pc.toNat + 1) (w.extractLsb' 0 8)

/-- Outcome Done (R84) with the next pc of R25. -/
def State.finish (s : State) (target : Addr) : Host.Outcome State Fault Refusal :=
  .next { s with pc := target, outcome := .done }

/-- Outcome Done with the next pc of R25's skips: pc0 + 4 if the condition holds, else pc0 + 2. -/
def State.skipIf (s : State) (c : Bool) : Host.Outcome State Fault Refusal :=
  s.finish (if c then s.pc + 4 else s.pc + 2)

/-- Outcome Blocked (R84): no state changes. -/
def State.block (s : State) : Host.Outcome State Fault Refusal := .next { s with outcome := .blocked }

/-- `raise F` (R226): FAULT is set, every other piece of state stays (pc stays pc0), and the outcome is Faulted.
There is no trap entry: nothing is saved and control goes nowhere (R229). -/
def State.raise (s : State) (f : FaultCode) : Host.Outcome State Fault Refusal :=
  .next { s with fault := f, outcome := .faulted }

/-- `reset()` (R260), the one way out of the fault state (R230): every piece of state at R40's value. The ports the
host drives, the events already emitted, the draws already made and the parameters are not state that R40 lists, and
they stay (notes/assumptions/6.md). -/
def State.resetAll (s : State) : State :=
  { State.reset with
    tickEn := s.tickEn, rndIn := s.rndIn, draws := s.draws, events := s.events, params := s.params }

end Sys2Proof.Machine
end

