-- ==== Sys2Proof/Machine/Flags.lean ====
section
/-! DEFINITION. Every flag computation: VF is the only flag, and seven instructions write it (spec/10_state.md R21,
R22). The seventh, DRW's collision, is the Bool that Machine/Framebuffer.lean's drawRows answers. -/

namespace Sys2Proof.Machine

/-- A flag as VF holds it: 1 or 0. -/
def flagByte (f : Bool) : Byte := if f then 1 else 0

/-- `x[15] <- f`, always the last register write of its instruction (R12, R144). -/
def State.setFlag (s : State) (f : Bool) : State := s.setV VF (flagByte f)

/-- Carry of a + b: the exact sum exceeds 255 (R136). -/
def carryOf (a b : Byte) : Bool := decide (a.toNat + b.toNat > 255)

/-- NOT borrow of a - b: no borrow iff a >= b (R137, R139, R141). -/
def notBorrowOf (a b : Byte) : Bool := decide (a.toNat ≥ b.toNat)

/-- The bit a right shift drops: bit 0 (R138). -/
def lowBitOf (a : Byte) : Bool := a.getLsbD 0

/-- The bit a left shift drops: bit 7 (R140). -/
def highBitOf (a : Byte) : Bool := a.getLsbD 7

/-- Fx1E's flag: the exact 17-bit sum of I and Vx exceeds 0xFFF (R162). -/
def indexOverflowOf (i : Word) (a : Byte) : Bool := decide (i.toNat + a.toNat > 0xFFF)

end Sys2Proof.Machine
end

