-- ==== Sys2Proof/Machine/Operands.lean ====
section
/-! DEFINITION. The operand forms: registers and immediates are the instruction's own fields (spec/30_encoding.md R82);
here are the forms that read something else. -/

namespace Sys2Proof.Machine

/-- The one addressing mode, I plus a small constant (spec/42_index_memory.md R160); the reduction modulo 4096 is the
access's own (R51). -/
def State.effAddr (s : State) (k : Nat) : Nat := s.I.toNat + k

/-- Vx as a key index (spec/44_input_timers.md R201): `none` when it is above 15. -/
def State.keyOperand (s : State) (x : Reg) : Option (Fin 16) :=
  if h : (s.getV x).toNat < 16 then some ⟨(s.getV x).toNat, h⟩ else none

/-- The operand K (R204): the least pressed key; `none` when no key is pressed. -/
def State.leastKey (s : State) : Option (Fin 16) := (List.finRange 16).find? fun k => s.key k

/-- RND, the random byte of this draw (spec/41_register_alu.md R145): the one the host named, else a free value. -/
def State.rndByte (s : State) : Byte :=
  match s.rndIn with
  | b :: _ => b
  | [] => Config.freeRnd s.draws

/-- The state after a draw: the byte is used up. -/
def State.drawn (s : State) : State := { s with rndIn := s.rndIn.tail, draws := s.draws + 1 }

/-- The operand F (spec/42_index_memory.md R163): the glyph address of Vx. -/
def State.glyphAddr (s : State) (x : Reg) : Nat :=
  (if s.params.fontAddrLowNibble then (s.getV x).toNat % 16 else (s.getV x).toNat) * 5

/-- The operand B's hundreds, tens and ones digits (R164). -/
def bcdHundreds (v : Byte) : Byte := BitVec.ofNat 8 (v.toNat / 100)
def bcdTens (v : Byte) : Byte := BitVec.ofNat 8 (v.toNat / 10 % 10)
def bcdOnes (v : Byte) : Byte := BitVec.ofNat 8 (v.toNat % 10)

/-- What CALL pushes: pc0, or pc0 + 2 with the paired alternative of RET_ADDS_2 (spec/40_control_flow.md R111, R113). -/
def State.callEntry (s : State) : Addr := if s.params.retAdds2 then s.pc else s.pc + 2

/-- Where RET goes from a popped entry (R110, R111). -/
def State.returnTarget (s : State) (entry : Addr) : Addr := if s.params.retAdds2 then entry + 2 else entry

/-- The sprite's n bytes, at I, I + 1, and so on (spec/43_display.md R182). -/
def State.spriteRows (s : State) (n : Nat) : List Byte := (List.range n).map fun r => s.memRead (s.effAddr r)

/-- `for k in 0..n-1: MemWrite(I + k, 1, x[k])` (R165). -/
def State.storeRegs (s : State) : Nat → State
  | 0 => s
  | k + 1 => (s.storeRegs k).memWrite (s.effAddr k) (s.getV (BitVec.ofNat 4 k))

/-- `for k in 0..n-1: x[k] <- MemRead(I + k, 1)`, with the old I throughout (R166). -/
def State.loadRegs (s : State) : Nat → State
  | 0 => s
  | k + 1 => (s.loadRegs k).setV (BitVec.ofNat 4 k) (s.memRead (s.effAddr k))

end Sys2Proof.Machine
end

