-- ==== Sys2Proof/Machine/Alu.lean ====
section
/-! DEFINITION. Register loads, the ALU family and random: spec/41_register_alu.md R130 to R146. Operands are read
before any write, and a flag write comes last (spec/00_scope.md R12). -/

namespace Sys2Proof.Machine

/-- Exact integer difference reduced modulo 256 (R141, R142). -/
def subMod (a b : Byte) : Byte := BitVec.ofInt 8 ((a.toNat : Int) - (b.toNat : Int))

/-- Exact integer sum reduced modulo 256 (R142). -/
def addMod (a b : Byte) : Byte := BitVec.ofNat 8 (a.toNat + b.toNat)

/-- LD Vx, kk (R130). -/
def execLdImm (x : Reg) (kk : Byte) (s : State) : Host.Outcome State Fault Refusal :=
  (s.setV x kk).finish (s.pc + 2)

/-- ADD Vx, kk (R131): no flag. -/
def execAddImm (x : Reg) (kk : Byte) (s : State) : Host.Outcome State Fault Refusal :=
  (s.setV x (addMod (s.getV x) kk)).finish (s.pc + 2)

/-- LD Vx, Vy (R132). -/
def execLdReg (x y : Reg) (s : State) : Host.Outcome State Fault Refusal :=
  (s.setV x (s.getV y)).finish (s.pc + 2)

/-- OR Vx, Vy (R133): VF is not reset. -/
def execOrReg (x y : Reg) (s : State) : Host.Outcome State Fault Refusal :=
  (s.setV x (s.getV x ||| s.getV y)).finish (s.pc + 2)

/-- AND Vx, Vy (R134): VF is not reset. -/
def execAndReg (x y : Reg) (s : State) : Host.Outcome State Fault Refusal :=
  (s.setV x (s.getV x &&& s.getV y)).finish (s.pc + 2)

/-- XOR Vx, Vy (R135): VF is not reset. -/
def execXorReg (x y : Reg) (s : State) : Host.Outcome State Fault Refusal :=
  (s.setV x (s.getV x ^^^ s.getV y)).finish (s.pc + 2)

/-- ADD Vx, Vy (R136). -/
def execAddReg (x y : Reg) (s : State) : Host.Outcome State Fault Refusal :=
  ((s.setV x (addMod (s.getV x) (s.getV y))).setFlag (carryOf (s.getV x) (s.getV y))).finish (s.pc + 2)

/-- SUB Vx, Vy (R137). -/
def execSubReg (x y : Reg) (s : State) : Host.Outcome State Fault Refusal :=
  ((s.setV x (subMod (s.getV x) (s.getV y))).setFlag (notBorrowOf (s.getV x) (s.getV y))).finish (s.pc + 2)

/-- SHR Vx (R138): Y is ignored. -/
def execShr (x _y : Reg) (s : State) : Host.Outcome State Fault Refusal :=
  ((s.setV x (s.getV x >>> 1)).setFlag (lowBitOf (s.getV x))).finish (s.pc + 2)

/-- SUBN Vx, Vy (R139). -/
def execSubnReg (x y : Reg) (s : State) : Host.Outcome State Fault Refusal :=
  ((s.setV x (subMod (s.getV y) (s.getV x))).setFlag (notBorrowOf (s.getV y) (s.getV x))).finish (s.pc + 2)

/-- SHL Vx (R140): Y is ignored. -/
def execShl (x _y : Reg) (s : State) : Host.Outcome State Fault Refusal :=
  ((s.setV x (s.getV x <<< 1)).setFlag (highBitOf (s.getV x))).finish (s.pc + 2)

/-- RND Vx, kk (R146). -/
def execRnd (x : Reg) (kk : Byte) (s : State) : Host.Outcome State Fault Refusal :=
  (s.drawn.setV x (s.rndByte &&& kk)).finish (s.pc + 2)

end Sys2Proof.Machine
end

