-- ==== Sys2Proof/Machine/ControlFlow.lean ====
section
/-! DEFINITION. Control flow: spec/40_control_flow.md R110 to R118. -/

namespace Sys2Proof.Machine

/-- RET (R110). -/
def execRet (s : State) : Host.Outcome State Fault Refusal :=
  match s.pop with
  | some (entry, t) => t.finish (s.returnTarget entry)
  | none => s.raise .stackUnderflow

/-- JP nnn (R112). -/
def execJp (nnn : Addr) (s : State) : Host.Outcome State Fault Refusal := s.finish nnn

/-- CALL nnn (R113). -/
def execCall (nnn : Addr) (s : State) : Host.Outcome State Fault Refusal :=
  match s.push s.callEntry with
  | some t => t.finish nnn
  | none => s.raise .stackOverflow

/-- SE Vx, kk (R114). -/
def execSeImm (x : Reg) (kk : Byte) (s : State) : Host.Outcome State Fault Refusal := s.skipIf (s.getV x == kk)

/-- SNE Vx, kk (R115). -/
def execSneImm (x : Reg) (kk : Byte) (s : State) : Host.Outcome State Fault Refusal := s.skipIf (s.getV x != kk)

/-- SE Vx, Vy (R116). -/
def execSeReg (x y : Reg) (s : State) : Host.Outcome State Fault Refusal := s.skipIf (s.getV x == s.getV y)

/-- SNE Vx, Vy (R117). -/
def execSneReg (x y : Reg) (s : State) : Host.Outcome State Fault Refusal := s.skipIf (s.getV x != s.getV y)

/-- JP V0, nnn (R118): (NNN + x[0]) mod 4096. -/
def execJpV0 (nnn : Addr) (s : State) : Host.Outcome State Fault Refusal :=
  s.finish (BitVec.ofNat 12 (nnn.toNat + (s.getV 0).toNat))

end Sys2Proof.Machine
end

