-- ==== Sys2Proof/Machine/Display.lean ====
section
/-! DEFINITION. Display: spec/43_display.md R181, R182. -/

namespace Sys2Proof.Machine

/-- CLS (R181). -/
def execCls (s : State) : Host.Outcome State Fault Refusal :=
  ({ s with fb := fbBlank, dirty := true }).finish (s.pc + 2)

/-- DRW Vx, Vy, n (R182). -/
def execDrw (x y : Reg) (n : Nibble) (s : State) : Host.Outcome State Fault Refusal :=
  let d := drawRows (s.getV x).toNat (s.getV y).toNat (s.spriteRows n.toNat) (s.fb, false)
  (({ s with fb := d.1, dirty := true }).setFlag d.2).finish (s.pc + 2)

end Sys2Proof.Machine
end

