-- ==== Sys2Proof/Machine/IndexMemory.lean ====
section
/-! DEFINITION. Index register and memory transfers: spec/42_index_memory.md R161 to R166. -/

namespace Sys2Proof.Machine

/-- LD I, nnn (R161). -/
def execLdI (nnn : Addr) (s : State) : Host.Outcome State Fault Refusal :=
  (s.setI nnn.toNat).finish (s.pc + 2)

/-- ADD I, Vx (R162). -/
def execAddI (x : Reg) (s : State) : Host.Outcome State Fault Refusal :=
  ((s.setI (s.I.toNat + (s.getV x).toNat)).setFlag (indexOverflowOf s.I (s.getV x))).finish (s.pc + 2)

/-- LD F, Vx (R163). -/
def execLdF (x : Reg) (s : State) : Host.Outcome State Fault Refusal :=
  (s.setI (s.glyphAddr x)).finish (s.pc + 2)

/-- LD B, Vx (R164): three bytes, most significant digit first. -/
def execLdB (x : Reg) (s : State) : Host.Outcome State Fault Refusal :=
  (((s.memWrite (s.effAddr 0) (bcdHundreds (s.getV x))).memWrite (s.effAddr 1) (bcdTens (s.getV x))).memWrite
    (s.effAddr 2) (bcdOnes (s.getV x))).finish (s.pc + 2)

/-- LD [I], Vx (R165). -/
def execLdMemVx (x : Reg) (s : State) : Host.Outcome State Fault Refusal :=
  ((s.storeRegs (x.toNat + 1)).setI (s.I.toNat + x.toNat + 1)).finish (s.pc + 2)

/-- LD Vx, [I] (R166). -/
def execLdVxMem (x : Reg) (s : State) : Host.Outcome State Fault Refusal :=
  ((s.loadRegs (x.toNat + 1)).setI (s.I.toNat + x.toNat + 1)).finish (s.pc + 2)

end Sys2Proof.Machine
end

