-- ==== Sys2Proof/Machine/InputTimers.lean ====
section
/-! DEFINITION. Key input and timer transfers: spec/44_input_timers.md R201 to R206. -/

namespace Sys2Proof.Machine

/-- SKP Vx (R201). -/
def execSkp (x : Reg) (s : State) : Host.Outcome State Fault Refusal :=
  match s.keyOperand x with
  | some k => s.skipIf (s.key k)
  | none => s.raise .keyRange

/-- SKNP Vx (R202). -/
def execSknp (x : Reg) (s : State) : Host.Outcome State Fault Refusal :=
  match s.keyOperand x with
  | some k => s.skipIf (!s.key k)
  | none => s.raise .keyRange

/-- LD Vx, DT (R203). -/
def execLdVxDt (x : Reg) (s : State) : Host.Outcome State Fault Refusal :=
  (s.setV x s.dt).finish (s.pc + 2)

/-- LD Vx, K (R204): the least pressed key, or Blocked. -/
def execLdVxK (x : Reg) (s : State) : Host.Outcome State Fault Refusal :=
  match s.leastKey with
  | some k => (s.setV x (BitVec.ofNat 8 k.val)).finish (s.pc + 2)
  | none => s.block

/-- LD DT, Vx (R205). -/
def execLdDtVx (x : Reg) (s : State) : Host.Outcome State Fault Refusal :=
  ({ s with dt := s.getV x }).finish (s.pc + 2)

/-- LD ST, Vx (R206). -/
def execLdStVx (x : Reg) (s : State) : Host.Outcome State Fault Refusal :=
  ({ s with st := s.getV x }).finish (s.pc + 2)

end Sys2Proof.Machine
end

