-- ==== Sys2Proof/Machine/Timers.lean ====
section
/-! DEFINITION. The timers and the end of a step: spec/60_exceptions.md R240 to R243; spec/30_encoding.md R83, R84. -/

namespace Sys2Proof.Machine

/-- The delay timer's part of a tick (R240). -/
def State.tickDelay (s : State) : State := if s.dt.toNat > 0 then { s with dt := s.dt - 1 } else s

/-- The sound timer's part of a tick (R240, R241): BEEP exactly when ST goes from 1 to 0. -/
def State.tickSound (s : State) : State :=
  if s.st.toNat > 0 then
    let t := if s.st = 1 then s.emit .beep else s
    { t with st := s.st - 1 }
  else s

/-- TimerTick() (R240). -/
def State.timerTick (s : State) : State := s.tickDelay.tickSound

/-- The third phase of a step (R83): `if outcome = Done and TICK_EN then TimerTick()`. -/
def State.endStep (s : State) : State := if s.outcome = .done ∧ s.tickEn = true then s.timerTick else s

end Sys2Proof.Machine
end

