-- ==== Sys2Proof/Machine/Unknown.lean ====
section
/-! DEFINITION. The execute phase of an UNKNOWN word: spec/60_exceptions.md R220, R221. -/

namespace Sys2Proof.Machine

/-- An UNKNOWN word (R220): one DIAG with the word and pc0, then pc0 + 2, outcome Done. -/
def execUnknown (w : Word) (s : State) : Host.Outcome State Fault Refusal :=
  (s.emit (.diag w s.pc)).finish (s.pc + 2)

end Sys2Proof.Machine
end

