-- ==== Sys2Proof/Machine/Step.lean ====
section
/-! DEFINITION. One step: spec/30_encoding.md R83. -/

namespace Sys2Proof.Machine

/-- The execute phase (R83): the decoded instruction, or an UNKNOWN word's rule. -/
def executePhase (w : Word) (s : State) : Host.Outcome State Fault Refusal :=
  match decodeWord w with
  | some i => exec i s
  | none => execUnknown w s

/-- `step()` (R83): fetch, execute, timer tick. On a faulted core it changes nothing (R226); its OUTCOME is Faulted. -/
def step (s : State) : Host.Outcome State Fault Refusal :=
  if s.fault = .none then
    match executePhase s.fetchWord s with
    | .next t => .next t.endStep
    | .fault r => .fault r
    | .refused r => .refused r
  else .next { s with outcome := .faulted }

/-- `s` with the instruction whose bits are `w` stored at pc, on a core that is not faulted, so that the next step runs
it (notes/assumptions/7.md). -/
def State.withFetchWord (s : State) (nbits w : Nat) : State :=
  { s with fault := .none }.placeWord (tableWord nbits w)

end Sys2Proof.Machine
end

