-- ==== Sys2Proof/Machine/HostCalls.lean ====
section
/-! DEFINITION. What the host can do between steps: spec/60_exceptions.md R246 to R250; spec/70_reset_and_hazards.md
R260 to R264. -/

namespace Sys2Proof.Machine

/-- What a host call gives back (R247). -/
inductive HostReply where
  /-- Nothing. -/
  | unit
  /-- `isDirty`, `isRunning`. -/
  | flag (b : Bool)
  /-- `getFramebufferSnapshot`: a copy of FB. -/
  | framebuffer (fb : Framebuffer)
  /-- `loadProgram`: the number of bytes copied (R263). -/
  | loaded (n : Nat)
  deriving DecidableEq, Repr

/-- The driver issues steps only in Running (R249): the inputs of this step are on the ports, then it is R83's step. -/
def State.issueStep (s : State) (rnd : Byte) (tickEn : Bool) : Host.Outcome (State × HostReply) Fault Refusal :=
  if s.run = .running then
    match step { s with rndIn := [rnd], tickEn := tickEn } with
    | .next t => .next (t, .unit)
    | .fault r => .fault r
    | .refused r => .refused r
  else .refused .stepNotIssued

/-- `setKey(k, pressed)` (R247). -/
def State.setKey (s : State) (k : Nat) (pressed : Bool) : Host.Outcome (State × HostReply) Fault Refusal :=
  if h : k < 16 then .next ({ s with latch := s.latch.set k pressed h }, .unit) else .refused .noSuchKey

/-- The image bytes at `a`, `a + 1`, and so on (R263). -/
def State.loadImageAt (s : State) : Nat → List Byte → State
  | _, [] => s
  | a, b :: image => (s.memWrite a b).loadImageAt (a + 1) image

/-- The copy of R263: the image at 0x200, and nothing else but the model's own `loadable`. -/
def State.loadImage (s : State) (image : List Byte) : Host.Outcome (State × HostReply) Fault Refusal :=
  .next ({ s.loadImageAt progBase image with loadable := false }, .loaded image.length)

/-- `loadProgram` (R263, R264): only while RUN is not Running, after a reset. -/
def State.loadProgram (s : State) (source : Option (List Byte)) : Host.Outcome (State × HostReply) Fault Refusal :=
  if s.run = .running ∨ s.loadable = false then .refused .loadNotAdmitted
  else
    match source with
    | none => .fault .loadError
    | some image =>
      if image.length ≤ progMax then s.loadImage image
      else
        match s.params.loadOversize with
        | .refuse => .refused .oversizeImage
        | .truncate => s.loadImage (image.take progMax)
        | .reject => .fault .loadError

/-- `start()` (R249). From then on an image can no longer be loaded without a reset (R263). -/
def State.start (s : State) : Host.Outcome (State × HostReply) Fault Refusal :=
  match s.run with
  | .stopped => .next ({ s with run := .running, loadable := false }, .unit)
  | .paused => .next ({ s with run := .running, loadable := false }, .unit)
  | .running => .refused .noSuchTransition

/-- `stop()` (R249). -/
def State.stop (s : State) : Host.Outcome (State × HostReply) Fault Refusal :=
  match s.run with
  | .running => .next ({ s with run := .stopped }, .unit)
  | .stopped => .refused .noSuchTransition
  | .paused => .refused .noSuchTransition

/-- `pause()` (R249). -/
def State.pause (s : State) : Host.Outcome (State × HostReply) Fault Refusal :=
  match s.run with
  | .running => .next ({ s with run := .paused }, .unit)
  | .stopped => .refused .noSuchTransition
  | .paused => .refused .noSuchTransition

/-- One host call, between steps (R247, R250). -/
def hostCall (c : HostCall) (s : State) : Host.Outcome (State × HostReply) Fault Refusal :=
  match c with
  | .issueStep rnd tickEn => s.issueStep rnd tickEn
  | .setKey k pressed => s.setKey k pressed
  | .getFramebufferSnapshot => .next (s, .framebuffer s.fb)
  | .isDirty => .next (s, .flag s.dirty)
  | .markClean => .next ({ s with dirty := false }, .unit)
  | .reset => .next (s.resetAll, .unit)
  | .loadProgram source => s.loadProgram source
  | .start => s.start
  | .stop => s.stop
  | .pause => s.pause
  | .isRunning => .next (s, .flag (decide (s.run = .running)))

/-- The states a list of host calls leads to, in order: every interleaving of steps and host operations. A call that is
refused or that reports LoadError changes nothing. -/
def hostRun (s : State) : List HostCall → State
  | [] => s
  | c :: calls =>
    match hostCall c s with
    | .next (t, _) => hostRun t calls
    | .fault _ => hostRun s calls
    | .refused _ => hostRun s calls

end Sys2Proof.Machine
end

