-- ==== Sys2Proof/Safety.lean ====
section
/-! DEFINITION. The terms claims are stated in: the invariant, a fault-free run, the halt idiom, which parts of the
state an instruction may write, and the relations the comparisons of two runs use. -/

namespace Sys2Proof.Machine

/-- The state's memory is in canonical form. -/
abbrev State.memOk (s : State) : Prop := Memory.wf s.params.font s.mem = true

/-- The invariant: memory is canonical, OUTCOME is Faulted exactly when FAULT is set (spec/30_encoding.md R84,
spec/60_exceptions.md R226), and I is below INDEX_WRAP, the modulus of every write to it (spec/00_scope.md R7, R11). -/
def Inv (s : State) : Prop :=
  s.memOk ∧ (s.outcome = .faulted ↔ s.fault ≠ .none) ∧ s.I.toNat < s.params.indexWrap.modulus

/-- A run of `n` steps on which "FAULT = NONE throughout" (spec/60_exceptions.md R226). -/
def FaultFree (s : State) (n : Nat) : Prop :=
  ∀ k, k ≤ n → ∃ t, Sys2Proof.core.run k s = .next t ∧ t.fault = .none

/-- "Halted at address a": pc = a, and the word there is 0x1000 | a, a JP to itself (spec/70_reset_and_hazards.md
R266). -/
def HaltedAt (a : Addr) (s : State) : Prop := s.pc = a ∧ s.fetchWord = 0x1#4 ++ a

/-- Every byte of memory reads in `t` as in `s`. -/
def MemoryKept (s t : State) : Prop := ∀ a, t.memRead a = s.memRead a

/-- Every register outside `changed` reads in `t` as in `s`. -/
def RegistersKeptBut (changed : List Reg) (s t : State) : Prop := ∀ r, r ∉ changed → t.getV r = s.getV r

/-- Completed with pc0 + 2, and nothing changed but registers of `changed`: no other register, no special register, no
byte of memory, no pixel (pc and OUTCOME apart). -/
def OnlyRegisters (changed : List Reg) (s t : State) : Prop :=
  RegistersKeptBut changed s t ∧ t = { s with v := t.v, pc := s.pc + 2, outcome := .done } ∧ MemoryKept s t

/-- Completed as a skip with condition `c`: pc0 + 4 if it holds, else pc0 + 2, modulo 4096 (spec/10_state.md R25), and
nothing else changed (OUTCOME apart). -/
def SkipResult (s t : State) (c : Prop) : Prop :=
  (c → t.pc.toNat = (s.pc.toNat + 4) % 4096) ∧ (¬c → t.pc.toNat = (s.pc.toNat + 2) % 4096) ∧
  t = { s with pc := t.pc, outcome := .done } ∧ MemoryKept s t

/-- The spec's state at the values of R40 (spec/10_state.md), read through the accessors. The font is the state's own
FONT_BYTES. -/
def HasResetValues (s : State) : Prop :=
  (∀ r, s.getV r = 0) ∧ s.I = 0 ∧ s.pc.toNat = 0x200 ∧ s.sp.val = 0 ∧ (∀ k (h : k < 16), s.stack[k] = 0) ∧
  s.dt = 0 ∧ s.st = 0 ∧
  (∀ a (h : a < 80), s.memRead a = s.params.font[a]) ∧ (∀ a, 80 ≤ a → a < 4096 → s.memRead a = 0) ∧
  (∀ px py, s.pixel px py = false) ∧ s.dirty = true ∧ (∀ k, s.key k = false) ∧
  s.fault = .none ∧ s.run = .stopped

/-- A part of the state that some instruction writes. pc and OUTCOME are written by every instruction. -/
inductive Part where
  | registers
  | index
  | stack
  | delay
  | sound
  | memory
  | screen
  | randomInput
  | fault
  deriving DecidableEq, Repr

/-- The parts an instruction may write: the "instruction write" column of R30, with R20, R31, R32 (spec/10_state.md). -/
def Part.writtenBy : Instr → List Part
  | .cls => [.screen]
  | .ret => [.stack, .fault]
  | .jp _ => []
  | .call _ => [.stack, .fault]
  | .seImm _ _ => []
  | .sneImm _ _ => []
  | .seReg _ _ => []
  | .ldImm _ _ => [.registers]
  | .addImm _ _ => [.registers]
  | .ldReg _ _ => [.registers]
  | .orReg _ _ => [.registers]
  | .andReg _ _ => [.registers]
  | .xorReg _ _ => [.registers]
  | .addReg _ _ => [.registers]
  | .subReg _ _ => [.registers]
  | .shr _ _ => [.registers]
  | .subnReg _ _ => [.registers]
  | .shl _ _ => [.registers]
  | .sneReg _ _ => []
  | .ldI _ => [.index]
  | .jpV0 _ => []
  | .rnd _ _ => [.registers, .randomInput]
  | .drw _ _ _ => [.registers, .screen]
  | .skp _ => [.fault]
  | .sknp _ => [.fault]
  | .ldVxDt _ => [.registers]
  | .ldVxK _ => [.registers]
  | .ldDtVx _ => [.delay]
  | .ldStVx _ => [.sound]
  | .addI _ => [.registers, .index]
  | .ldF _ => [.index]
  | .ldB _ => [.memory]
  | .ldMemVx _ => [.memory, .index]
  | .ldVxMem _ => [.registers, .index]

/-- The registers an instruction may write: its destination X, VF for the seven flag writers (R21), and V0 to Vx for
Fx65 (R166). -/
def destinations : Instr → List Reg
  | .cls => []
  | .ret => []
  | .jp _ => []
  | .call _ => []
  | .seImm _ _ => []
  | .sneImm _ _ => []
  | .seReg _ _ => []
  | .ldImm x _ => [x]
  | .addImm x _ => [x]
  | .ldReg x _ => [x]
  | .orReg x _ => [x]
  | .andReg x _ => [x]
  | .xorReg x _ => [x]
  | .addReg x _ => [x, VF]
  | .subReg x _ => [x, VF]
  | .shr x _ => [x, VF]
  | .subnReg x _ => [x, VF]
  | .shl x _ => [x, VF]
  | .sneReg _ _ => []
  | .ldI _ => []
  | .jpV0 _ => []
  | .rnd x _ => [x]
  | .drw _ _ _ => [VF]
  | .skp _ => []
  | .sknp _ => []
  | .ldVxDt x => [x]
  | .ldVxK x => [x]
  | .ldDtVx _ => []
  | .ldStVx _ => []
  | .addI _ => [VF]
  | .ldF _ => []
  | .ldB _ => []
  | .ldMemVx _ => []
  | .ldVxMem x => (List.range (x.toNat + 1)).map (BitVec.ofNat 4)

/-- Ex9E, ExA1 and Fx0A: the instructions that read KEY (spec/44_input_timers.md R200). -/
def readsKeys : Instr → Bool
  | .skp _ | .sknp _ | .ldVxK _ => true
  | .cls | .ret | .jp _ | .call _ | .seImm _ _ | .sneImm _ _ | .seReg _ _ | .ldImm _ _ | .addImm _ _ => false
  | .ldReg _ _ | .orReg _ _ | .andReg _ _ | .xorReg _ _ | .addReg _ _ | .subReg _ _ | .shr _ _ => false
  | .subnReg _ _ | .shl _ _ | .sneReg _ _ | .ldI _ | .jpV0 _ | .rnd _ _ | .drw _ _ _ | .ldVxDt _ => false
  | .ldDtVx _ | .ldStVx _ | .addI _ | .ldF _ | .ldB _ | .ldMemVx _ | .ldVxMem _ => false

/-- Some set bit of the sprite falls on pixel (px, py): row r < n, column col < 8, bit 7 - col of the byte at I + r, at
(Vx + col, Vy + r) wrapped to the screen (spec/43_display.md R182, R183). -/
def SpriteCovers (s : State) (x y : Reg) (n : Nibble) (px py : Nat) : Prop :=
  ∃ r col, r < n.toNat ∧ col < 8 ∧ (s.memRead (s.I.toNat + r)).getLsbD (7 - col) = true ∧
    ((s.getV x).toNat + col) % 64 = px % 64 ∧ ((s.getV y).toNat + r) % 32 = py % 32

/-- `s'` is the machine `s` with RET_ADDS_2 false: the same state, but each stack entry in use holds the return address
itself, 2 above the entry of `s` (spec/40_control_flow.md R111). Entries not in use may differ. -/
def SameButReturnEntries (s s' : State) : Prop :=
  s.params.retAdds2 = true ∧
  s' = { s with params := { s.params with retAdds2 := false }, stack := s'.stack } ∧
  ∀ k (h : k < 16), k < s.sp.val → s'.stack[k] = s.stack[k] + 2

end Sys2Proof.Machine
end

