-- ==== Sys2Proof/Certificates/Slice0/Obligations.lean ====
section
/-! DEFINITION. The statements for the provers. Each says what the machine does, in terms of what its accessors read;
the terms they share are in Sys2Proof/Safety.lean. A statement that rests on a decision the spec marks as its own
(D<n> of spec/92_eei_decisions.md) or on a choice of the model's says so. -/

open Sys2Proof Sys2Proof.Machine

/-! ## Encoding -/

/-- Decoding an encoded instruction gives it back, every operand at every value, whatever bytes follow
(spec/30_encoding.md R80, R81, R86, R88; the numeric encodings are the spec's own supply, 93 G3). -/
def Obligations.DecodingAnEncodedInstructionGivesItBack : Prop :=
  ∀ (i : Instr) (rest : List Byte), i.wellFormed = true → decode (encodeBytes i ++ rest) = .ok (i, rest)

/-- The other direction: bytes that decode are the encoding of what they decode to, so no bit of a word is dropped, the
ignored Y of SHR and SHL included. -/
def Obligations.BytesThatDecodeAreTheEncoding : Prop :=
  ∀ (bytes rest : List Byte) (i : Instr), decode bytes = .ok (i, rest) → bytes = encodeBytes i ++ rest

/-- R85: a word selects row r exactly when (w & mask_r) = match_r; at most one row applies; a word that no row selects
is UNKNOWN. -/
def Obligations.AWordSelectsAtMostOneRow : Prop :=
  ∀ w : Word,
    (∀ r ∈ opcodeTable, w &&& r.mask = r.pat → decodeWord w = some (r.make w)) ∧
    (∀ r ∈ opcodeTable, ∀ r' ∈ opcodeTable, w &&& r.mask = r.pat → w &&& r'.mask = r'.pat →
      r.pat = r'.pat ∧ r.mask = r'.mask) ∧
    ((∀ r ∈ opcodeTable, w &&& r.mask ≠ r.pat) ↔ decodeWord w = none)

/-- The UNKNOWN words are those R90 lists (the spec's decision D11), by their fields. -/
def Obligations.UnknownWordsAreThoseListed : Prop :=
  ∀ w : Word, decodeWord w = none ↔
    (fieldOP w = 0x0 ∧ w ≠ 0x00E0 ∧ w ≠ 0x00EE) ∨
    (fieldOP w = 0x5 ∧ fieldN w ≠ 0) ∨
    (fieldOP w = 0x8 ∧ fieldN w ∈ [0x8#4, 0x9#4, 0xA#4, 0xB#4, 0xC#4, 0xD#4, 0xF#4]) ∨
    (fieldOP w = 0x9 ∧ fieldN w ≠ 0) ∨
    (fieldOP w = 0xE ∧ fieldNN w ∉ [0x9E#8, 0xA1#8]) ∨
    (fieldOP w = 0xF ∧ fieldNN w ∉ [0x07#8, 0x0A#8, 0x15#8, 0x18#8, 0x1E#8, 0x29#8, 0x33#8, 0x55#8, 0x65#8])

/-- Words written out from R86's encodings, a few of each family (their numbers are the spec's own supply, 93 G3). -/
def Obligations.SampleWordsDecode : Prop :=
  decodeWord 0x00E0 = some .cls ∧ decodeWord 0x00EE = some .ret ∧ decodeWord 0x1234 = some (.jp 0x234) ∧
  decodeWord 0x3510 = some (.seImm 0x5 0x10) ∧ decodeWord 0x8127 = some (.subnReg 0x1 0x2) ∧
  decodeWord 0xA2F0 = some (.ldI 0x2F0) ∧ decodeWord 0xC30F = some (.rnd 0x3 0x0F) ∧
  decodeWord 0xD125 = some (.drw 0x1 0x2 0x5) ∧ decodeWord 0xE4A1 = some (.sknp 0x4) ∧
  decodeWord 0xF20A = some (.ldVxK 0x2) ∧ decodeWord 0xF155 = some (.ldMemVx 0x1) ∧
  decodeWord 0x8008 = none ∧ decodeWord 0x0000 = none

/-! ## Reset and the invariant -/

/-- After reset every piece of state holds R40's value (pc = 0x200 is the spec's decision D16, memory outside the font
D34, FB and LATCH D35, FAULT D5). -/
def Obligations.ResetHoldsTheListedValues : Prop := HasResetValues State.reset

/-- `reset()` from any state gives R40's values, and it is the only host call that clears a fault (R260, R226; D5). -/
def Obligations.OnlyResetClearsAFault : Prop :=
  (∀ s : State, ∃ t, hostCall .reset s = .next (t, .unit) ∧ HasResetValues t ∧ t.params = s.params) ∧
  (∀ (c : HostCall) (s t : State) (r : HostReply), c ≠ .reset → s.fault ≠ .none → hostCall c s = .next (t, r) →
    t.fault = s.fault)

/-- The invariant holds after reset. Two of its clauses rest on the model's own choices: OUTCOME is Done after reset by
log entry 3 (a design choice: R40 lists no OUTCOME), and the canonical form of memory is log entry 8. -/
def Obligations.InvariantHoldsAtReset : Prop := Inv State.reset

/-- Every step keeps the invariant: memory stays in its canonical form, OUTCOME is Faulted exactly when FAULT is set,
and I stays below INDEX_WRAP. The canonical form is the model's own form of memory (log entry 8). -/
def Obligations.EveryStepKeepsTheInvariant : Prop :=
  ∀ s t : State, Inv s → step s = .next t → Inv t

/-- Every interleaving of steps and host calls keeps the invariant. Two points are the model's own choices: a `reset()`
of a faulted core leaves OUTCOME at Done (log entry 6, a design choice), and the form of memory (log entry 8). -/
def Obligations.EveryHostRunKeepsTheInvariant : Prop :=
  ∀ (s : State) (calls : List HostCall), Inv s → Inv (hostRun s calls)

/-- Canonical memories that read alike at every address are equal data (the model's own form of memory, log entry 8). -/
def Obligations.MemoriesThatReadAlikeAreEqual : Prop :=
  ∀ (font : Font) (m m' : Memory), Memory.wf font m = true → Memory.wf font m' = true →
    (∀ a, a < 4096 → Memory.read font m a = Memory.read font m' a) → m = m'

/-! ## The step -/

/-- The three phases of a step (R83): the two bytes at pc, big-endian, are decoded, the instruction (or R220's rule) is
executed, and the timers tick if the outcome is Done and TICK_EN holds. On a faulted core (the spec's decision D5) a step
changes no state of the core, and the OUTCOME port then reads Faulted, which is the model's inference (log entry 11). -/
def Obligations.StepRunsTheDecodedInstruction : Prop :=
  ∀ s : State,
    (s.fault ≠ .none → step s = .next { s with outcome := .faulted }) ∧
    (∀ i : Instr, s.fault = .none → i.wellFormed = true →
      decode [s.memRead s.pc.toNat, s.memRead (s.pc.toNat + 1)] = .ok (i, []) →
      step s = match exec i s with
        | .next t => .next (if t.outcome = .done ∧ t.tickEn = true then t.timerTick else t)
        | .fault r => .fault r
        | .refused r => .refused r) ∧
    (∀ w : Word, s.fault = .none →
      decode [s.memRead s.pc.toNat, s.memRead (s.pc.toNat + 1)] = .error (.unknown w) →
      step s = match execUnknown w s with
        | .next t => .next (if t.outcome = .done ∧ t.tickEn = true then t.timerTick else t)
        | .fault r => .fault r
        | .refused r => .refused r)

/-- Every run goes on: no step answers the Host's fault or refusal. The manual's own faults, which stop the core (R229,
R248), are next states here: FAULT is set and the core stands still (log entry 11, the model's inference from R226; D5). -/
def Obligations.EveryRunGoesOn : Prop :=
  ∀ (s : State) (n : Nat), ∃ t, Sys2Proof.core.run n s = .next t

/-- An UNKNOWN word's step: one DIAG with the word and its address, then pc0 + 2, then the usual tick, and nothing else
(R220, R221; that the tick follows is the spec's conflict C9, the payload D38). -/
def Obligations.AnUnknownWordIsReportedAndPassed : Prop :=
  ∀ s : State, s.fault = .none → decodeWord s.fetchWord = none →
    ∃ t, step s = .next t ∧ t.pc = s.pc + 2 ∧ t.outcome = .done ∧
      t.events = s.events ++ .diag s.fetchWord s.pc :: (if s.tickEn = true ∧ s.st = 1 then [.beep] else []) ∧
      t.dt.toNat = (if s.tickEn = true then s.dt.toNat - 1 else s.dt.toNat) ∧
      t.st.toNat = (if s.tickEn = true then s.st.toNat - 1 else s.st.toNat) ∧
      t = { s with pc := t.pc, dt := t.dt, st := t.st, events := t.events, outcome := .done } ∧ MemoryKept s t

/-- The events of a step: DIAG exactly when the word is UNKNOWN, then BEEP exactly when the tick takes ST from 1 to 0
(R221, R228, R241; D38). -/
def Obligations.EventsOfAStep : Prop :=
  ∀ s t : State, s.fault = .none → step s = .next t →
    ∃ u, executePhase s.fetchWord s = .next u ∧
      t.events = s.events ++ (if decodeWord s.fetchWord = none then [.diag s.fetchWord s.pc] else []) ++
        (if u.outcome = .done ∧ s.tickEn = true ∧ u.st = 1 then [.beep] else [])

/-- TimerTick (R240): both timers go down by 1 and stay at 0, BEEP is emitted exactly when ST was 1, and nothing else
changes. -/
def Obligations.ATickCountsBothTimersDown : Prop :=
  ∀ s : State, s.timerTick.dt.toNat = s.dt.toNat - 1 ∧ s.timerTick.st.toNat = s.st.toNat - 1 ∧
    s.timerTick.events = s.events ++ (if s.st.toNat = 1 then [.beep] else []) ∧
    s.timerTick = { s with dt := s.timerTick.dt, st := s.timerTick.st, events := s.timerTick.events }

/-- R241: loading ST = n > 0 and letting it count down emits exactly one BEEP, on the n-th tick. -/
def Obligations.TheSoundTimerBeepsOnceOnItsLastTick : Prop :=
  ∀ (s : State) (n : Nat), (State.timerTick^[n] s).st.toNat = s.st.toNat - n ∧
    (State.timerTick^[n] s).events = s.events ++ (if 0 < s.st.toNat ∧ s.st.toNat ≤ n then [.beep] else [])

/-- The fault state is sticky: any number of further steps leaves everything as it is but the OUTCOME port (R226; the
spec's decision D5). That the port reads Faulted after each of them, also where it did not before, is the model's
inference (log entry 11). -/
def Obligations.AFaultedCoreStandsStill : Prop :=
  ∀ (s : State) (n : Nat), s.fault ≠ .none →
    Sys2Proof.core.run (n + 1) s = .next { s with outcome := .faulted }

/-- Faults are precise, and only the listed instructions raise them, in the listed cases (R222, R224, R225, R226; the
spec's decisions D4, D5, D6). -/
def Obligations.FaultsArePreciseAndOnlyThoseListed : Prop :=
  ∀ s t : State, s.fault = .none → step s = .next t → t.fault ≠ .none →
    t = { s with fault := t.fault, outcome := .faulted } ∧
    ((∃ nnn, decodeWord s.fetchWord = some (.call nnn) ∧ s.sp.val = 16 ∧ t.fault = .stackOverflow) ∨
     (decodeWord s.fetchWord = some .ret ∧ s.sp.val = 0 ∧ t.fault = .stackUnderflow) ∨
     (∃ x, (decodeWord s.fetchWord = some (.skp x) ∨ decodeWord s.fetchWord = some (.sknp x)) ∧
       15 < (s.getV x).toNat ∧ t.fault = .keyRange))

/-- A core halted at a (pc = a, the self-jump there) stays halted for any number of steps, and only its timers and the
beep go on (R266; the idiom is the spec's decision D29). -/
def Obligations.AHaltedCoreStaysHalted : Prop :=
  ∀ (a : Addr) (s : State) (n : Nat), s.fault = .none → HaltedAt a s →
    ∃ t, Sys2Proof.core.run n s = .next t ∧ HaltedAt a t ∧
      t = { s with dt := t.dt, st := t.st, events := t.events, outcome := t.outcome }

/-! ## Control flow -/

/-- The four register skips (R114 to R117). -/
def Obligations.RegisterSkipsFollowTheirConditions : Prop :=
  ∀ s : State,
    (∀ x kk, ∃ t, exec (.seImm x kk) s = .next t ∧ SkipResult s t (s.getV x = kk)) ∧
    (∀ x kk, ∃ t, exec (.sneImm x kk) s = .next t ∧ SkipResult s t (s.getV x ≠ kk)) ∧
    (∀ x y, ∃ t, exec (.seReg x y) s = .next t ∧ SkipResult s t (s.getV x = s.getV y)) ∧
    (∀ x y, ∃ t, exec (.sneReg x y) s = .next t ∧ SkipResult s t (s.getV x ≠ s.getV y))

/-- JP nnn (R112): pc is NNN, and nothing else changes. -/
def Obligations.AJumpSetsPcAlone : Prop :=
  ∀ (s : State) (nnn : Addr), ∃ t, exec (.jp nnn) s = .next t ∧
    t = { s with pc := nnn, outcome := .done } ∧ MemoryKept s t

/-- JP V0, nnn (R118): pc is (NNN + V0) modulo 4096 (the reduction is the spec's decision D2). -/
def Obligations.TheOffsetJumpAddsV0 : Prop :=
  ∀ (s : State) (nnn : Addr), ∃ t, exec (.jpV0 nnn) s = .next t ∧
    t.pc.toNat = (nnn.toNat + (s.getV 0).toNat) % 4096 ∧
    t = { s with pc := t.pc, outcome := .done } ∧ MemoryKept s t

/-- CALL with a free entry (R113, R111): the entry at sp is written, sp goes up by 1, pc is NNN, and nothing else
changes. Which value the entry holds for RET_ADDS_2 false is the paired alternative of R111 (D33). -/
def Obligations.ACallPushesAndJumps : Prop :=
  ∀ (s : State) (nnn : Addr) (h : s.sp.val < 16), ∃ t, exec (.call nnn) s = .next t ∧
    t.pc = nnn ∧ t.sp.val = s.sp.val + 1 ∧
    t.stack[s.sp.val] = (if s.params.retAdds2 = true then s.pc else s.pc + 2) ∧
    (∀ k (_ : k < 16), k ≠ s.sp.val → t.stack[k] = s.stack[k]) ∧
    t = { s with pc := t.pc, sp := t.sp, stack := t.stack, outcome := .done } ∧ MemoryKept s t

/-- RET with an entry in use (R110, R111; D24, D33): sp goes down by 1, pc is the popped entry + 2 modulo 4096 (with
RET_ADDS_2 false, the entry itself), the entry keeps its value, and nothing else changes. -/
def Obligations.AReturnPopsAndAddsTwo : Prop :=
  ∀ (s : State) (h : 0 < s.sp.val), ∃ t, exec .ret s = .next t ∧
    t.sp.val = s.sp.val - 1 ∧
    t.pc.toNat = ((s.stack[s.sp.val - 1]'(by omega)).toNat + (if s.params.retAdds2 = true then 2 else 0)) % 4096 ∧
    t = { s with pc := t.pc, sp := t.sp, outcome := .done } ∧ MemoryKept s t

/-- A CALL with 16 entries in use and a RET with none change nothing but FAULT (R224, R226; the spec's decisions D4,
D5). -/
def Obligations.StackFaultsChangeOnlyFault : Prop :=
  (∀ (s : State) (nnn : Addr), s.sp.val = 16 →
    exec (.call nnn) s = .next { s with fault := .stackOverflow, outcome := .faulted }) ∧
  (∀ s : State, s.sp.val = 0 → exec .ret s = .next { s with fault := .stackUnderflow, outcome := .faulted })

/-- A RET that finds the stack as a CALL left it goes on after that CALL, for both settings of RET_ADDS_2, whatever
else changed between the two (R110, R111, R113). -/
def Obligations.AReturnGoesOnAfterItsCall : Prop :=
  ∀ (s : State) (nnn : Addr), s.sp.val < 16 → ∃ t, exec (.call nnn) s = .next t ∧
    ∀ t' : State, t'.sp = t.sp → t'.stack = t.stack → t'.params = s.params →
      ∃ u, exec .ret t' = .next u ∧ u.pc = s.pc + 2 ∧ u.sp = s.sp

/-- The two settings of RET_ADDS_2 are observably equal (R111, which the spec marks as derived): the two machines, step
for step, agree in everything but their stack entries. -/
def Obligations.TheTwoReturnSettingsAreObservablyEqual : Prop :=
  ∀ (s s' t : State) (n : Nat), SameButReturnEntries s s' → Sys2Proof.core.run n s = .next t →
    ∃ t', Sys2Proof.core.run n s' = .next t' ∧ SameButReturnEntries t t'

/-! ## Register loads, the ALU family and random -/

/-- LD Vx, kk; ADD Vx, kk; LD Vx, Vy (R130, R131, R132): the destination's new value, and nothing else changes, VF
included unless it is the destination. -/
def Obligations.LoadsAndImmediateAddWriteOnlyTheirDestination : Prop :=
  ∀ (s : State) (x : Reg),
    (∀ kk, ∃ t, exec (.ldImm x kk) s = .next t ∧ t.getV x = kk ∧ OnlyRegisters [x] s t) ∧
    (∀ kk, ∃ t, exec (.addImm x kk) s = .next t ∧
      (t.getV x).toNat = ((s.getV x).toNat + kk.toNat) % 256 ∧ OnlyRegisters [x] s t) ∧
    (∀ y, ∃ t, exec (.ldReg x y) s = .next t ∧ t.getV x = s.getV y ∧ OnlyRegisters [x] s t)

/-- OR, AND, XOR (R133, R134, R135), bit by bit; VF is unchanged unless it is the destination (the spec's decision
D10). -/
def Obligations.LogicWorksBitByBit : Prop :=
  ∀ (s : State) (x y : Reg),
    (∃ t, exec (.orReg x y) s = .next t ∧
      (∀ k, (t.getV x).getLsbD k = ((s.getV x).getLsbD k || (s.getV y).getLsbD k)) ∧ OnlyRegisters [x] s t) ∧
    (∃ t, exec (.andReg x y) s = .next t ∧
      (∀ k, (t.getV x).getLsbD k = ((s.getV x).getLsbD k && (s.getV y).getLsbD k)) ∧ OnlyRegisters [x] s t) ∧
    (∃ t, exec (.xorReg x y) s = .next t ∧
      (∀ k, (t.getV x).getLsbD k = ((s.getV x).getLsbD k != (s.getV y).getLsbD k)) ∧ OnlyRegisters [x] s t)

/-- ADD Vx, Vy (R136): VF is the carry, and the sum modulo 256 is the destination's unless that is VF, where the flag
stays (the spec's decision D9). -/
def Obligations.AdditionWrapsAndFlagsCarry : Prop :=
  ∀ (s : State) (x y : Reg), ∃ t, exec (.addReg x y) s = .next t ∧
    t.getV VF = (if (s.getV x).toNat + (s.getV y).toNat > 255 then 1 else 0) ∧
    (x ≠ VF → (t.getV x).toNat = ((s.getV x).toNat + (s.getV y).toNat) % 256) ∧ OnlyRegisters [x, VF] s t

/-- SUB and SUBN (R137, R139): VF is NOT borrow, and the difference modulo 256 is the destination's unless that is VF,
where the flag stays. -/
def Obligations.SubtractionsWrapAndFlagNotBorrow : Prop :=
  ∀ (s : State) (x y : Reg),
    (∃ t, exec (.subReg x y) s = .next t ∧
      t.getV VF = (if (s.getV x).toNat ≥ (s.getV y).toNat then 1 else 0) ∧
      (x ≠ VF → ((t.getV x).toNat : Int) = (((s.getV x).toNat : Int) - (s.getV y).toNat) % 256) ∧
      OnlyRegisters [x, VF] s t) ∧
    (∃ t, exec (.subnReg x y) s = .next t ∧
      t.getV VF = (if (s.getV y).toNat ≥ (s.getV x).toNat then 1 else 0) ∧
      (x ≠ VF → ((t.getV x).toNat : Int) = (((s.getV y).toNat : Int) - (s.getV x).toNat) % 256) ∧
      OnlyRegisters [x, VF] s t)

/-- SHR and SHL (R138, R140): Vx shifts by one, Y is ignored (the spec's decision D8), VF is the bit shifted out, and
where X is VF the flag stays (D9). -/
def Obligations.ShiftsMoveVxByOneAndFlagTheLostBit : Prop :=
  ∀ (s : State) (x y : Reg),
    (∃ t, exec (.shr x y) s = .next t ∧ t.getV VF = (if (s.getV x).toNat % 2 = 1 then 1 else 0) ∧
      (x ≠ VF → (t.getV x).toNat = (s.getV x).toNat / 2) ∧ OnlyRegisters [x, VF] s t) ∧
    (∃ t, exec (.shl x y) s = .next t ∧ t.getV VF = (if (s.getV x).toNat ≥ 128 then 1 else 0) ∧
      (x ≠ VF → (t.getV x).toNat = 2 * (s.getV x).toNat % 256) ∧ OnlyRegisters [x, VF] s t)

/-- RND Vx, kk (R146) for every byte RND can be: the byte the host names, or, where it names none, the free value of
this draw (log entry 1). The draw is used up; nothing else changes. -/
def Obligations.RandomIsMaskedForEveryByte : Prop :=
  ∀ (s : State) (x : Reg) (kk : Byte),
    (∀ b rest, s.rndIn = b :: rest → ∃ t, exec (.rnd x kk) s = .next t ∧ t.getV x = b &&& kk ∧ t.rndIn = rest) ∧
    (s.rndIn = [] → ∃ t, exec (.rnd x kk) s = .next t ∧ t.getV x = Config.freeRnd s.draws &&& kk) ∧
    (∃ t, exec (.rnd x kk) s = .next t ∧ t.draws = s.draws + 1 ∧ RegistersKeptBut [x] s t ∧ MemoryKept s t ∧
      t = { s with v := t.v, pc := s.pc + 2, rndIn := t.rndIn, draws := t.draws, outcome := .done })

/-! ## Index register and memory transfers -/

/-- LD I, nnn (R161): I is NNN, and nothing else changes. -/
def Obligations.LoadIndexSetsI : Prop :=
  ∀ (s : State) (nnn : Addr), ∃ t, exec (.ldI nnn) s = .next t ∧ t.I.toNat = nnn.toNat ∧
    t = { s with I := t.I, pc := s.pc + 2, outcome := .done } ∧ MemoryKept s t

/-- ADD I, Vx (R162): I is the sum modulo INDEX_WRAP, and VF says whether the exact sum of the full I and Vx exceeds
0xFFF (the spec's decisions D31, D33), also where X is VF (D9). -/
def Obligations.AddToIndexWrapsAndFlagsTheTwelveBitOverflow : Prop :=
  ∀ (s : State) (x : Reg), ∃ t, exec (.addI x) s = .next t ∧
    t.I.toNat = (s.I.toNat + (s.getV x).toNat) % s.params.indexWrap.modulus ∧
    t.getV VF = (if s.I.toNat + (s.getV x).toNat > 0xFFF then 1 else 0) ∧ RegistersKeptBut [VF] s t ∧
    t = { s with v := t.v, I := t.I, pc := s.pc + 2, outcome := .done } ∧ MemoryKept s t

/-- LD F, Vx (R163): for a digit 0 to F, I is 5 times the digit under both readings; above it, Vx times 5, or the low
digit times 5 with FONT_ADDR_LOW_NIBBLE (the spec's conflict C5, decision D32). -/
def Obligations.FontAddressIsFiveTimesTheDigit : Prop :=
  ∀ (s : State) (x : Reg), ∃ t, exec (.ldF x) s = .next t ∧
    ((s.getV x).toNat < 16 → t.I.toNat = 5 * (s.getV x).toNat) ∧
    (s.params.fontAddrLowNibble = false → t.I.toNat = 5 * (s.getV x).toNat) ∧
    (s.params.fontAddrLowNibble = true → t.I.toNat = 5 * ((s.getV x).toNat % 16)) ∧
    t = { s with I := t.I, pc := s.pc + 2, outcome := .done } ∧ MemoryKept s t

/-- LD B, Vx (R164): the three decimal digits at I, I + 1, I + 2 (addresses modulo 4096), every other byte unchanged,
I and everything else unchanged. Memory is in canonical form, which every step keeps. -/
def Obligations.BcdStoresTheThreeDigits : Prop :=
  ∀ (s : State) (x : Reg), s.memOk → ∃ t, exec (.ldB x) s = .next t ∧
    (t.memRead (s.effAddr 0)).toNat = (s.getV x).toNat / 100 ∧
    (t.memRead (s.effAddr 1)).toNat = (s.getV x).toNat / 10 % 10 ∧
    (t.memRead (s.effAddr 2)).toNat = (s.getV x).toNat % 10 ∧
    (∀ a, (∀ k, k < 3 → a % 4096 ≠ s.effAddr k % 4096) → t.memRead a = s.memRead a) ∧
    t = { s with mem := t.mem, pc := s.pc + 2, outcome := .done }

/-- LD [I], Vx (R165): V0 to Vx at I to I + X (addresses modulo 4096), every other byte unchanged, I up by X + 1 modulo
INDEX_WRAP, everything else unchanged. Memory is in canonical form, which every step keeps. -/
def Obligations.BulkStoreWritesTheRegisters : Prop :=
  ∀ (s : State) (x : Reg), s.memOk → ∃ t, exec (.ldMemVx x) s = .next t ∧
    (∀ r : Reg, r.toNat ≤ x.toNat → t.memRead (s.effAddr r.toNat) = s.getV r) ∧
    (∀ a, (∀ k, k ≤ x.toNat → a % 4096 ≠ s.effAddr k % 4096) → t.memRead a = s.memRead a) ∧
    t.I.toNat = (s.I.toNat + x.toNat + 1) % s.params.indexWrap.modulus ∧
    t = { s with mem := t.mem, I := t.I, pc := s.pc + 2, outcome := .done }

/-- LD Vx, [I] (R166): V0 to Vx from the bytes at the old I onward (addresses modulo 4096), I up by X + 1 modulo
INDEX_WRAP, everything else unchanged. -/
def Obligations.BulkLoadReadsTheRegisters : Prop :=
  ∀ (s : State) (x : Reg), ∃ t, exec (.ldVxMem x) s = .next t ∧
    (∀ r : Reg, r.toNat ≤ x.toNat → t.getV r = s.memRead (s.effAddr r.toNat)) ∧
    (∀ r : Reg, x.toNat < r.toNat → t.getV r = s.getV r) ∧
    t.I.toNat = (s.I.toNat + x.toNat + 1) % s.params.indexWrap.modulus ∧
    t = { s with v := t.v, I := t.I, pc := s.pc + 2, outcome := .done } ∧ MemoryKept s t

/-- A bulk load from memory as a bulk store left it, at the same I, gives the stored registers back, whatever else
changed between the two (R165, R166). -/
def Obligations.ABulkLoadGivesBackABulkStore : Prop :=
  ∀ (s : State) (x : Reg), s.memOk → ∃ t, exec (.ldMemVx x) s = .next t ∧
    ∀ t' : State, MemoryKept t t' → t'.I = s.I → ∃ u, exec (.ldVxMem x) t' = .next u ∧
      ∀ r : Reg, r.toNat ≤ x.toNat → u.getV r = s.getV r

/-- R268: a store into instruction memory is seen by the very next fetch, and the new word is the one executed: each
byte of the word at the next pc that Fx55 or Fx33 has just stored is the stored one, the high byte at pc and the low
byte at pc + 1. Memory is in canonical form, which every step keeps. -/
def Obligations.AStoreIsSeenByTheNextFetch : Prop :=
  ∀ (s : State) (x : Reg), s.memOk →
    (∃ t, exec (.ldMemVx x) s = .next t ∧
      (∀ r : Reg, r.toNat ≤ x.toNat →
        (s.effAddr r.toNat % 4096 = t.pc.toNat → t.fetchWord.extractLsb' 8 8 = s.getV r) ∧
        (s.effAddr r.toNat % 4096 = (t.pc.toNat + 1) % 4096 → t.fetchWord.extractLsb' 0 8 = s.getV r)) ∧
      (t.fault = .none → step t = match executePhase t.fetchWord t with
        | .next u => .next u.endStep
        | .fault f => .fault f
        | .refused f => .refused f)) ∧
    (∃ t, exec (.ldB x) s = .next t ∧
      (∀ k (h : k < 3),
        (s.effAddr k % 4096 = t.pc.toNat → (t.fetchWord.extractLsb' 8 8).toNat =
          [(s.getV x).toNat / 100, (s.getV x).toNat / 10 % 10, (s.getV x).toNat % 10][k]) ∧
        (s.effAddr k % 4096 = (t.pc.toNat + 1) % 4096 → (t.fetchWord.extractLsb' 0 8).toNat =
          [(s.getV x).toNat / 100, (s.getV x).toNat / 10 % 10, (s.getV x).toNat % 10][k])) ∧
      (t.fault = .none → step t = match executePhase t.fetchWord t with
        | .next u => .next u.endStep
        | .fault f => .fault f
        | .refused f => .refused f))

/-- Only I modulo 4096 selects a byte (R23, R51, R160): but for Fx1E, whose flag sees all of I, an instruction run with
another I of the same residue differs in I alone. -/
def Obligations.HighIndexBitsSelectNoByte : Prop :=
  ∀ (i : Instr) (s t : State) (j : Word), (∀ x, i ≠ .addI x) → j.toNat % 4096 = s.I.toNat % 4096 →
    exec i s = .next t → ∃ t', exec i { s with I := j } = .next t' ∧ t' = { t with I := t'.I }

/-! ## Display -/

/-- CLS (R181): every pixel off, DIRTY set even on a blank screen (the spec's decision D14), nothing else changed. -/
def Obligations.ClearTurnsEveryPixelOff : Prop :=
  ∀ s : State, ∃ t, exec .cls s = .next t ∧ (∀ px py, t.pixel px py = false) ∧
    t = { s with fb := t.fb, dirty := true, pc := s.pc + 2, outcome := .done } ∧ MemoryKept s t

/-- DRW (R182, R183; N = 0 is the spec's decision D28, the bit order D27): exactly the pixels that the sprite's set bits
fall on, wrapped, flip; VF is 1 if one of them was lit and 0 otherwise; DIRTY is set; I, memory and everything else are
unchanged. The coordinates are read before VF is written. -/
def Obligations.DrawFlipsExactlyTheSpritesPixels : Prop :=
  ∀ (s : State) (x y : Reg) (n : Nibble), ∃ t, exec (.drw x y n) s = .next t ∧
    (∀ px py, SpriteCovers s x y n px py → t.pixel px py = !s.pixel px py) ∧
    (∀ px py, ¬SpriteCovers s x y n px py → t.pixel px py = s.pixel px py) ∧
    ((∃ px py, SpriteCovers s x y n px py ∧ s.pixel px py = true) → t.getV VF = 1) ∧
    (¬(∃ px py, SpriteCovers s x y n px py ∧ s.pixel px py = true) → t.getV VF = 0) ∧
    RegistersKeptBut [VF] s t ∧
    t = { s with v := t.v, fb := t.fb, dirty := true, pc := s.pc + 2, outcome := .done } ∧ MemoryKept s t

/-- R184: VF is 1 after DRW iff at least one pixel went from set to clear; otherwise it is 0. -/
def Obligations.CollisionMeansAPixelWentFromSetToClear : Prop :=
  ∀ (s : State) (x y : Reg) (n : Nibble), ∃ t, exec (.drw x y n) s = .next t ∧
    (t.getV VF = 1 ↔ ∃ px py, s.pixel px py = true ∧ t.pixel px py = false) ∧ (t.getV VF = 1 ∨ t.getV VF = 0)

/-- Drawing a sprite twice at the same place erases it, and the second draw collides exactly if the first one lit a
pixel (R182, R184; D27, D28). Where X or Y is VF the first draw moves the second, so those forms are left out here. -/
def Obligations.DrawingTwiceErases : Prop :=
  ∀ (s : State) (x y : Reg) (n : Nibble), x ≠ VF → y ≠ VF → ∃ t u, exec (.drw x y n) s = .next t ∧
    exec (.drw x y n) t = .next u ∧ u.fb = s.fb ∧
    (u.getV VF = 1 ↔ ∃ px py, s.pixel px py = false ∧ t.pixel px py = true)

/-! ## Keys and timers -/

/-- SKP and SKNP (R201, R202): with Vx at most 15 they skip by that key; above it they fault and change nothing else
(the spec's decision D6). -/
def Obligations.KeySkipsFollowTheKey : Prop :=
  ∀ (s : State) (x : Reg),
    (∀ k : Fin 16, (s.getV x).toNat = k.val →
      (∃ t, exec (.skp x) s = .next t ∧ SkipResult s t (s.key k = true)) ∧
      (∃ t, exec (.sknp x) s = .next t ∧ SkipResult s t (s.key k = false))) ∧
    (15 < (s.getV x).toNat →
      exec (.skp x) s = .next { s with fault := .keyRange, outcome := .faulted } ∧
      exec (.sknp x) s = .next { s with fault := .keyRange, outcome := .faulted })

/-- LD Vx, K (R204): with a key pressed, Vx is the least pressed key's index (the spec's decision D7). With none, the
step changes nothing, and no timer ticks whatever TICK_EN is. -/
def Obligations.TheKeyWaitTakesTheLeastKeyOrBlocks : Prop :=
  ∀ (s : State) (x : Reg),
    (∀ k : Fin 16, s.key k = true → (∀ j, j < k → s.key j = false) →
      ∃ t, exec (.ldVxK x) s = .next t ∧ (t.getV x).toNat = k.val ∧ OnlyRegisters [x] s t) ∧
    ((∀ k, s.key k = false) → exec (.ldVxK x) s = .next { s with outcome := .blocked } ∧
      (s.fault = .none → decodeWord s.fetchWord = some (.ldVxK x) → step s = .next { s with outcome := .blocked }))

/-- Fx07, Fx15, Fx18 (R203, R205, R206): the transfer, and nothing else, in the execute phase. -/
def Obligations.TimerTransfersCopyOneByte : Prop :=
  ∀ (s : State) (x : Reg),
    (∃ t, exec (.ldVxDt x) s = .next t ∧ t.getV x = s.dt ∧ OnlyRegisters [x] s t) ∧
    (∃ t, exec (.ldDtVx x) s = .next t ∧
      t = { s with dt := s.getV x, pc := s.pc + 2, outcome := .done } ∧ MemoryKept s t) ∧
    (∃ t, exec (.ldStVx x) s = .next t ∧
      t = { s with st := s.getV x, pc := s.pc + 2, outcome := .done } ∧ MemoryKept s t)

/-- The tick follows the transfer in the same step (R271, which the spec marks as derived): Fx07 reads DT before the
tick, and Fx15 and Fx18 write before it. -/
def Obligations.TheTickFollowsTheTransfer : Prop :=
  ∀ (s : State) (x : Reg), s.fault = .none → s.tickEn = true →
    (decodeWord s.fetchWord = some (.ldVxDt x) → ∃ t, step s = .next t ∧ t.getV x = s.dt ∧
      t.dt.toNat = s.dt.toNat - 1) ∧
    (decodeWord s.fetchWord = some (.ldDtVx x) → ∃ t, step s = .next t ∧ t.dt.toNat = (s.getV x).toNat - 1) ∧
    (decodeWord s.fetchWord = some (.ldStVx x) → ∃ t, step s = .next t ∧ t.st.toNat = (s.getV x).toNat - 1 ∧
      t.events = s.events ++ (if (s.getV x).toNat = 1 then [.beep] else []))

/-! ## Rules about every instruction -/

/-- Every instruction writes only its own parts of the state, and only its own registers; none writes LATCH, RUN, the
ports, the parameters or emits an event in the execute phase (the write column of R30 with R20, R21, R31 to R36; D10). -/
def Obligations.EveryInstructionWritesOnlyItsParts : Prop :=
  ∀ (i : Instr) (s t : State), exec i s = .next t →
    RegistersKeptBut (destinations i) s t ∧
    (.registers ∉ Part.writtenBy i → t.v = s.v) ∧
    (.index ∉ Part.writtenBy i → t.I = s.I) ∧
    (.stack ∉ Part.writtenBy i → t.sp = s.sp ∧ t.stack = s.stack) ∧
    (.delay ∉ Part.writtenBy i → t.dt = s.dt) ∧
    (.sound ∉ Part.writtenBy i → t.st = s.st) ∧
    (.memory ∉ Part.writtenBy i → MemoryKept s t) ∧
    (.screen ∉ Part.writtenBy i → t.fb = s.fb ∧ t.dirty = s.dirty) ∧
    (.randomInput ∉ Part.writtenBy i → t.rndIn = s.rndIn ∧ t.draws = s.draws) ∧
    (.fault ∉ Part.writtenBy i → t.fault = s.fault) ∧
    t.latch = s.latch ∧ t.run = s.run ∧ t.tickEn = s.tickEn ∧ t.events = s.events ∧ t.loadable = s.loadable ∧
    t.params = s.params

/-- A step's three inputs are read only where the manual says: KEY by Ex9E, ExA1 and Fx0A (R200), RND by Cxkk (R145),
and TICK_EN by no instruction (R243). -/
def Obligations.InputsAreReadOnlyWhereListed : Prop :=
  ∀ (i : Instr) (s t : State), exec i s = .next t →
    (∀ keys, readsKeys i = false → exec i { s with latch := keys } = .next { t with latch := keys }) ∧
    (∀ bytes d, .randomInput ∉ Part.writtenBy i →
      exec i { s with rndIn := bytes, draws := d } = .next { t with rndIn := bytes, draws := d }) ∧
    (∀ b, exec i { s with tickEn := b } = .next { t with tickEn := b })

/-- TICK_EN decides nothing in a step but the timers and the beep (R83, R243; D13). -/
def Obligations.TickEnableTouchesOnlyTheTimers : Prop :=
  ∀ (s t : State) (b : Bool), step s = .next t → ∃ t', step { s with tickEn := b } = .next t' ∧
    t' = { t with dt := t'.dt, st := t'.st, events := t'.events, tickEn := b }

/-! ## The host -/

/-- The calls of R247 that touch one flag or none: `setKey` sets that key's flag alone (a key number above 15 is
refused, log entry 10); the snapshot shows every pixel, and `isDirty` and `isRunning` answer the flags, none of the
three changing the state; `markClean` clears DIRTY alone. -/
def Obligations.HostFlagCallsTouchOneFlagAtMost : Prop :=
  ∀ s : State,
    (∀ k b (h : k < 16), ∃ t, hostCall (.setKey k b) s = .next (t, .unit) ∧ t.key ⟨k, h⟩ = b ∧
      (∀ j : Fin 16, j.val ≠ k → t.key j = s.key j) ∧ t = { s with latch := t.latch }) ∧
    (∀ k b, 16 ≤ k → hostCall (.setKey k b) s = .refused .noSuchKey) ∧
    (∃ fb, hostCall .getFramebufferSnapshot s = .next (s, .framebuffer fb) ∧
      ∀ px py, fbPixel fb px py = s.pixel px py) ∧
    hostCall .isDirty s = .next (s, .flag s.dirty) ∧
    (∃ b, hostCall .isRunning s = .next (s, .flag b) ∧ (b = true ↔ s.run = .running)) ∧
    hostCall .markClean s = .next ({ s with dirty := false }, .unit)

/-- `loadProgram` (R263; the admission is the spec's decision D36): the image at 0x200 onward, every other byte
unchanged, nothing else changed but the model's own flag that a new load needs a reset (log entry 16). -/
def Obligations.LoadProgramCopiesTheImage : Prop :=
  ∀ (s : State) (image : List Byte), s.memOk → s.run ≠ .running → s.loadable = true → image.length ≤ 3584 →
    ∃ t, hostCall (.loadProgram (some image)) s = .next (t, .loaded image.length) ∧
      (∀ k (h : k < image.length), t.memRead (0x200 + k) = image[k]) ∧
      (∀ a, a < 4096 → (a < 0x200 ∨ 0x200 + image.length ≤ a) → t.memRead a = s.memRead a) ∧
      t = { s with mem := t.mem, loadable := false }

/-- LoadError and the oversize image (R264; LOAD_OVERSIZE is open, D18, C7). A load while Running or not after a reset is
refused, whatever its source (D36; log entry 16 says how "after a reset" is held). Otherwise an unreadable source is a
LoadError; an image over 3584 bytes is refused (log entry 15), or cut (its first 3584 bytes are at 0x200 to 0xFFF, every
byte below 0x200 and everything else unchanged but the model's own flag, and the reply is 3584), or a LoadError. A load
that is refused or ends in LoadError changes nothing in a host run (log entry 20 for LoadError as an answer). -/
def Obligations.AnOversizeImageWritesNothingBelowTheProgram : Prop :=
  ∀ s : State,
    (∀ source, s.run = .running ∨ s.loadable = false → hostCall (.loadProgram source) s = .refused .loadNotAdmitted) ∧
    (s.run ≠ .running → s.loadable = true → hostCall (.loadProgram none) s = .fault .loadError) ∧
    (∀ image : List Byte, s.run ≠ .running → s.loadable = true → 3584 < image.length →
      (s.params.loadOversize = .refuse → hostCall (.loadProgram (some image)) s = .refused .oversizeImage) ∧
      (s.params.loadOversize = .reject → hostCall (.loadProgram (some image)) s = .fault .loadError) ∧
      (s.params.loadOversize = .truncate → s.memOk →
        ∃ t, hostCall (.loadProgram (some image)) s = .next (t, .loaded 3584) ∧
          (∀ k (h : k < image.length), k < 3584 → t.memRead (0x200 + k) = image[k]) ∧
          (∀ a, a < 0x200 → t.memRead a = s.memRead a) ∧
          t = { s with mem := t.mem, loadable := false })) ∧
    (∀ source calls, (∀ t r, hostCall (.loadProgram source) s ≠ .next (t, r)) →
      hostRun s (.loadProgram source :: calls) = hostRun s calls)

/-- RUN (R249; the pairing of stop and pause is the spec's decision D19): `reset()` from any state goes to Stopped with
every component reset; `start` from Stopped or Paused, `stop` and `pause` from Running change RUN alone, and `start` also
the model's own load flag (log entry 16). Steps are issued only in Running, with the inputs of that step on the ports
(log entry 12). That a step issued in another state is refused is the model's choice (log entry 10). -/
def Obligations.RunStateGovernsSteps : Prop :=
  ∀ s : State,
    (∃ t, hostCall .reset s = .next (t, .unit) ∧ t.run = .stopped ∧ HasResetValues t) ∧
    (s.run = .stopped ∨ s.run = .paused →
      hostCall .start s = .next ({ s with run := .running, loadable := false }, .unit)) ∧
    (s.run = .running → hostCall .stop s = .next ({ s with run := .stopped }, .unit) ∧
      hostCall .pause s = .next ({ s with run := .paused }, .unit)) ∧
    (∀ rnd tick, s.run ≠ .running → hostCall (.issueStep rnd tick) s = .refused .stepNotIssued) ∧
    (∀ rnd tick, s.run = .running → ∃ t, step { s with rndIn := [rnd], tickEn := tick } = .next t ∧
      hostCall (.issueStep rnd tick) s = .next (t, .unit))

/-- But for steps and reset, no host call writes a register, the stack, the timers, the framebuffer, pc or FAULT, and
only `loadProgram` writes memory (R62, R247, R263). -/
def Obligations.HostCallsLeaveTheCoreAlone : Prop :=
  ∀ (c : HostCall) (s t : State) (r : HostReply), c ≠ .reset → (∀ b e, c ≠ .issueStep b e) →
    hostCall c s = .next (t, r) →
    t.v = s.v ∧ t.I = s.I ∧ t.pc = s.pc ∧ t.sp = s.sp ∧ t.stack = s.stack ∧ t.dt = s.dt ∧ t.st = s.st ∧
    t.fb = s.fb ∧ t.fault = s.fault ∧ ((∀ p, c ≠ .loadProgram p) → MemoryKept s t)
end

