-- ==== Sys2Proof/Laws/Decode.lean ====
section
/-! SUPPORT. Words, fields and rows: what the decoder reads and what a row's mask tests, nibble by nibble. -/

namespace Sys2Proof

/-- Appending, as arithmetic. -/
theorem toNat_append_add {n m : Nat} (a : BitVec n) (b : BitVec m) : (a ++ b).toNat = a.toNat * 2 ^ m + b.toNat := by
  rw [BitVec.toNat_append, ← Nat.shiftLeft_add_eq_or_of_lt b.isLt, Nat.shiftLeft_eq]

/-- A word of four nibbles, as a number. -/
theorem toNat_formXY (a x y n : BitVec 4) :
    (formXY a x y n).toNat = a.toNat * 4096 + (x.toNat * 256 + (y.toNat * 16 + n.toNat)) := by
  unfold formXY
  rw [toNat_append_add, toNat_append_add, toNat_append_add]
  rfl

/-- Every word is its four fields OP, X, Y and N (spec/30_encoding.md R81). -/
theorem word_eq (w : Word) : w = formXY (fieldOP w) (fieldX w) (fieldY w) (fieldN w) := by
  apply BitVec.eq_of_toNat_eq
  have := w.isLt
  rw [toNat_formXY]
  simp only [fieldOP, fieldX, fieldY, fieldN, BitVec.extractLsb'_toNat, Nat.shiftRight_eq_div_pow]
  omega

/-- NN = Y ++ N (R81). -/
theorem fieldNN_eq (w : Word) : fieldNN w = fieldY w ++ fieldN w := by
  apply BitVec.eq_of_toNat_eq
  have := w.isLt
  rw [toNat_append_add]
  simp only [fieldNN, fieldY, fieldN, BitVec.extractLsb'_toNat, Nat.shiftRight_eq_div_pow]
  omega

/-- NNN = X ++ NN (R81). -/
theorem fieldNNN_eq (w : Word) : fieldNNN w = fieldX w ++ fieldNN w := by
  apply BitVec.eq_of_toNat_eq
  have := w.isLt
  rw [toNat_append_add]
  simp only [fieldNNN, fieldX, fieldNN, BitVec.extractLsb'_toNat, Nat.shiftRight_eq_div_pow]
  omega

/-- Words are equal exactly when their four nibbles are. -/
theorem formXY_inj {a x y n b x' y' n' : BitVec 4} :
    formXY a x y n = formXY b x' y' n' ↔ a = b ∧ x = x' ∧ y = y' ∧ n = n' := by
  constructor
  · intro h
    have h := congrArg BitVec.toNat h
    rw [toNat_formXY, toNat_formXY] at h
    refine ⟨?_, ?_, ?_, ?_⟩ <;> apply BitVec.eq_of_toNat_eq <;> omega
  · rintro ⟨rfl, rfl, rfl, rfl⟩
    rfl

/-- The fields of a word made of four nibbles. -/
theorem fields_formXY (a x y n : BitVec 4) : fieldOP (formXY a x y n) = a ∧ fieldX (formXY a x y n) = x ∧
    fieldY (formXY a x y n) = y ∧ fieldN (formXY a x y n) = n := by
  have h := formXY_inj.mp (word_eq (formXY a x y n))
  exact ⟨h.1.symm, h.2.1.symm, h.2.2.1.symm, h.2.2.2.symm⟩

/-- Masking works nibble by nibble. -/
theorem and_formXY (a x y n b x' y' n' : BitVec 4) :
    formXY a x y n &&& formXY b x' y' n' = formXY (a &&& b) (x &&& x') (y &&& y') (n &&& n') := by
  unfold formXY
  exact (BitVec.and_append).trans (congrArg _ (BitVec.and_append.trans (congrArg _ BitVec.and_append)))

/-- A word selects a row exactly when each nibble, masked, is the row's. -/
theorem selects_iff (r : Row) (w : Word) : r.selects w = true ↔
    fieldOP w &&& fieldOP r.mask = fieldOP r.pat ∧ fieldX w &&& fieldX r.mask = fieldX r.pat ∧
    fieldY w &&& fieldY r.mask = fieldY r.pat ∧ fieldN w &&& fieldN r.mask = fieldN r.pat := by
  rw [Row.selects, beq_iff_eq, ← formXY_inj, ← and_formXY, ← word_eq, ← word_eq, ← word_eq]

/-- Format XK as four nibbles. -/
theorem formXK_eq (op : BitVec 4) (x : Reg) (kk : Byte) :
    formXK op x kk = formXY op x (kk.extractLsb' 4 4) (kk.extractLsb' 0 4) := by
  apply BitVec.eq_of_toNat_eq
  rw [toNat_formXY, formXK, toNat_append_add, toNat_append_add]
  simp only [BitVec.extractLsb'_toNat, Nat.shiftRight_eq_div_pow]
  have := kk.isLt
  omega

/-- Format XS as four nibbles. -/
theorem formXS_eq (op : BitVec 4) (x : Reg) (kk : Byte) :
    formXS op x kk = formXY op x (kk.extractLsb' 4 4) (kk.extractLsb' 0 4) := formXK_eq op x kk

/-- Format A as four nibbles. -/
theorem formA_eq (op : BitVec 4) (nnn : Addr) :
    formA op nnn = formXY op (nnn.extractLsb' 8 4) (nnn.extractLsb' 4 4) (nnn.extractLsb' 0 4) := by
  apply BitVec.eq_of_toNat_eq
  rw [toNat_formXY, formA, toNat_append_add]
  simp only [BitVec.extractLsb'_toNat, Nat.shiftRight_eq_div_pow]
  have := nnn.isLt
  omega

/-- NN of a format XK word. -/
theorem fieldNN_formXK (op : BitVec 4) (x : Reg) (kk : Byte) : fieldNN (formXK op x kk) = kk := by
  apply BitVec.eq_of_toNat_eq
  simp only [fieldNN, formXK, BitVec.extractLsb'_toNat, toNat_append_add, Nat.shiftRight_eq_div_pow]
  have := kk.isLt
  omega

/-- NNN of a format A word. -/
theorem fieldNNN_formA (op : BitVec 4) (nnn : Addr) : fieldNNN (formA op nnn) = nnn := by
  apply BitVec.eq_of_toNat_eq
  simp only [fieldNNN, formA, BitVec.extractLsb'_toNat, toNat_append_add, Nat.shiftRight_eq_div_pow]
  have := nnn.isLt
  omega

/-- The row test on a word of four nibbles. -/
theorem selects_formXY (pat mask : Word) (f : Word → Instr) (a x y n : BitVec 4) :
    Row.selects ⟨pat, mask, f⟩ (formXY a x y n) =
      (decide (a &&& fieldOP mask = fieldOP pat) && decide (x &&& fieldX mask = fieldX pat) &&
       decide (y &&& fieldY mask = fieldY pat) && decide (n &&& fieldN mask = fieldN pat)) := by
  rw [Bool.eq_iff_iff, selects_iff]
  obtain ⟨h1, h2, h3, h4⟩ := fields_formXY a x y n
  rw [h1, h2, h3, h4]
  simp [and_assoc]

end Sys2Proof
end

