-- ==== Sys2Proof/Laws/State.lean ====
section
/-! SUPPORT. One lemma per field per update: what each state update leaves as it was. -/

namespace Sys2Proof.Machine

section setVFields
@[simp] theorem State.setV_I (s : State) (x : Reg) (b : Byte) : (s.setV x b).I = s.I := rfl
@[simp] theorem State.setV_pc (s : State) (x : Reg) (b : Byte) : (s.setV x b).pc = s.pc := rfl
@[simp] theorem State.setV_sp (s : State) (x : Reg) (b : Byte) : (s.setV x b).sp = s.sp := rfl
@[simp] theorem State.setV_stack (s : State) (x : Reg) (b : Byte) : (s.setV x b).stack = s.stack := rfl
@[simp] theorem State.setV_dt (s : State) (x : Reg) (b : Byte) : (s.setV x b).dt = s.dt := rfl
@[simp] theorem State.setV_st (s : State) (x : Reg) (b : Byte) : (s.setV x b).st = s.st := rfl
@[simp] theorem State.setV_mem (s : State) (x : Reg) (b : Byte) : (s.setV x b).mem = s.mem := rfl
@[simp] theorem State.setV_fb (s : State) (x : Reg) (b : Byte) : (s.setV x b).fb = s.fb := rfl
@[simp] theorem State.setV_dirty (s : State) (x : Reg) (b : Byte) : (s.setV x b).dirty = s.dirty := rfl
@[simp] theorem State.setV_latch (s : State) (x : Reg) (b : Byte) : (s.setV x b).latch = s.latch := rfl
@[simp] theorem State.setV_fault (s : State) (x : Reg) (b : Byte) : (s.setV x b).fault = s.fault := rfl
@[simp] theorem State.setV_run (s : State) (x : Reg) (b : Byte) : (s.setV x b).run = s.run := rfl
@[simp] theorem State.setV_outcome (s : State) (x : Reg) (b : Byte) : (s.setV x b).outcome = s.outcome := rfl
@[simp] theorem State.setV_tickEn (s : State) (x : Reg) (b : Byte) : (s.setV x b).tickEn = s.tickEn := rfl
@[simp] theorem State.setV_rndIn (s : State) (x : Reg) (b : Byte) : (s.setV x b).rndIn = s.rndIn := rfl
@[simp] theorem State.setV_draws (s : State) (x : Reg) (b : Byte) : (s.setV x b).draws = s.draws := rfl
@[simp] theorem State.setV_events (s : State) (x : Reg) (b : Byte) : (s.setV x b).events = s.events := rfl
@[simp] theorem State.setV_loadable (s : State) (x : Reg) (b : Byte) : (s.setV x b).loadable = s.loadable := rfl
@[simp] theorem State.setV_params (s : State) (x : Reg) (b : Byte) : (s.setV x b).params = s.params := rfl
end setVFields

section setFlagFields
@[simp] theorem State.setFlag_I (s : State) (f : Bool) : (s.setFlag f).I = s.I := rfl
@[simp] theorem State.setFlag_pc (s : State) (f : Bool) : (s.setFlag f).pc = s.pc := rfl
@[simp] theorem State.setFlag_sp (s : State) (f : Bool) : (s.setFlag f).sp = s.sp := rfl
@[simp] theorem State.setFlag_stack (s : State) (f : Bool) : (s.setFlag f).stack = s.stack := rfl
@[simp] theorem State.setFlag_dt (s : State) (f : Bool) : (s.setFlag f).dt = s.dt := rfl
@[simp] theorem State.setFlag_st (s : State) (f : Bool) : (s.setFlag f).st = s.st := rfl
@[simp] theorem State.setFlag_mem (s : State) (f : Bool) : (s.setFlag f).mem = s.mem := rfl
@[simp] theorem State.setFlag_fb (s : State) (f : Bool) : (s.setFlag f).fb = s.fb := rfl
@[simp] theorem State.setFlag_dirty (s : State) (f : Bool) : (s.setFlag f).dirty = s.dirty := rfl
@[simp] theorem State.setFlag_latch (s : State) (f : Bool) : (s.setFlag f).latch = s.latch := rfl
@[simp] theorem State.setFlag_fault (s : State) (f : Bool) : (s.setFlag f).fault = s.fault := rfl
@[simp] theorem State.setFlag_run (s : State) (f : Bool) : (s.setFlag f).run = s.run := rfl
@[simp] theorem State.setFlag_outcome (s : State) (f : Bool) : (s.setFlag f).outcome = s.outcome := rfl
@[simp] theorem State.setFlag_tickEn (s : State) (f : Bool) : (s.setFlag f).tickEn = s.tickEn := rfl
@[simp] theorem State.setFlag_rndIn (s : State) (f : Bool) : (s.setFlag f).rndIn = s.rndIn := rfl
@[simp] theorem State.setFlag_draws (s : State) (f : Bool) : (s.setFlag f).draws = s.draws := rfl
@[simp] theorem State.setFlag_events (s : State) (f : Bool) : (s.setFlag f).events = s.events := rfl
@[simp] theorem State.setFlag_loadable (s : State) (f : Bool) : (s.setFlag f).loadable = s.loadable := rfl
@[simp] theorem State.setFlag_params (s : State) (f : Bool) : (s.setFlag f).params = s.params := rfl
end setFlagFields

section setIFields
@[simp] theorem State.setI_v (s : State) (n : Nat) : (s.setI n).v = s.v := rfl
@[simp] theorem State.setI_pc (s : State) (n : Nat) : (s.setI n).pc = s.pc := rfl
@[simp] theorem State.setI_sp (s : State) (n : Nat) : (s.setI n).sp = s.sp := rfl
@[simp] theorem State.setI_stack (s : State) (n : Nat) : (s.setI n).stack = s.stack := rfl
@[simp] theorem State.setI_dt (s : State) (n : Nat) : (s.setI n).dt = s.dt := rfl
@[simp] theorem State.setI_st (s : State) (n : Nat) : (s.setI n).st = s.st := rfl
@[simp] theorem State.setI_mem (s : State) (n : Nat) : (s.setI n).mem = s.mem := rfl
@[simp] theorem State.setI_fb (s : State) (n : Nat) : (s.setI n).fb = s.fb := rfl
@[simp] theorem State.setI_dirty (s : State) (n : Nat) : (s.setI n).dirty = s.dirty := rfl
@[simp] theorem State.setI_latch (s : State) (n : Nat) : (s.setI n).latch = s.latch := rfl
@[simp] theorem State.setI_fault (s : State) (n : Nat) : (s.setI n).fault = s.fault := rfl
@[simp] theorem State.setI_run (s : State) (n : Nat) : (s.setI n).run = s.run := rfl
@[simp] theorem State.setI_outcome (s : State) (n : Nat) : (s.setI n).outcome = s.outcome := rfl
@[simp] theorem State.setI_tickEn (s : State) (n : Nat) : (s.setI n).tickEn = s.tickEn := rfl
@[simp] theorem State.setI_rndIn (s : State) (n : Nat) : (s.setI n).rndIn = s.rndIn := rfl
@[simp] theorem State.setI_draws (s : State) (n : Nat) : (s.setI n).draws = s.draws := rfl
@[simp] theorem State.setI_events (s : State) (n : Nat) : (s.setI n).events = s.events := rfl
@[simp] theorem State.setI_loadable (s : State) (n : Nat) : (s.setI n).loadable = s.loadable := rfl
@[simp] theorem State.setI_params (s : State) (n : Nat) : (s.setI n).params = s.params := rfl
end setIFields

section memWriteFields
@[simp] theorem State.memWrite_v (s : State) (a : Nat) (b : Byte) : (s.memWrite a b).v = s.v := rfl
@[simp] theorem State.memWrite_I (s : State) (a : Nat) (b : Byte) : (s.memWrite a b).I = s.I := rfl
@[simp] theorem State.memWrite_pc (s : State) (a : Nat) (b : Byte) : (s.memWrite a b).pc = s.pc := rfl
@[simp] theorem State.memWrite_sp (s : State) (a : Nat) (b : Byte) : (s.memWrite a b).sp = s.sp := rfl
@[simp] theorem State.memWrite_stack (s : State) (a : Nat) (b : Byte) : (s.memWrite a b).stack = s.stack := rfl
@[simp] theorem State.memWrite_dt (s : State) (a : Nat) (b : Byte) : (s.memWrite a b).dt = s.dt := rfl
@[simp] theorem State.memWrite_st (s : State) (a : Nat) (b : Byte) : (s.memWrite a b).st = s.st := rfl
@[simp] theorem State.memWrite_fb (s : State) (a : Nat) (b : Byte) : (s.memWrite a b).fb = s.fb := rfl
@[simp] theorem State.memWrite_dirty (s : State) (a : Nat) (b : Byte) : (s.memWrite a b).dirty = s.dirty := rfl
@[simp] theorem State.memWrite_latch (s : State) (a : Nat) (b : Byte) : (s.memWrite a b).latch = s.latch := rfl
@[simp] theorem State.memWrite_fault (s : State) (a : Nat) (b : Byte) : (s.memWrite a b).fault = s.fault := rfl
@[simp] theorem State.memWrite_run (s : State) (a : Nat) (b : Byte) : (s.memWrite a b).run = s.run := rfl
@[simp] theorem State.memWrite_outcome (s : State) (a : Nat) (b : Byte) : (s.memWrite a b).outcome = s.outcome := rfl
@[simp] theorem State.memWrite_tickEn (s : State) (a : Nat) (b : Byte) : (s.memWrite a b).tickEn = s.tickEn := rfl
@[simp] theorem State.memWrite_rndIn (s : State) (a : Nat) (b : Byte) : (s.memWrite a b).rndIn = s.rndIn := rfl
@[simp] theorem State.memWrite_draws (s : State) (a : Nat) (b : Byte) : (s.memWrite a b).draws = s.draws := rfl
@[simp] theorem State.memWrite_events (s : State) (a : Nat) (b : Byte) : (s.memWrite a b).events = s.events := rfl
@[simp] theorem State.memWrite_loadable (s : State) (a : Nat) (b : Byte) : (s.memWrite a b).loadable = s.loadable := rfl
@[simp] theorem State.memWrite_params (s : State) (a : Nat) (b : Byte) : (s.memWrite a b).params = s.params := rfl
end memWriteFields

section emitFields
@[simp] theorem State.emit_v (s : State) (e : Event) : (s.emit e).v = s.v := rfl
@[simp] theorem State.emit_I (s : State) (e : Event) : (s.emit e).I = s.I := rfl
@[simp] theorem State.emit_pc (s : State) (e : Event) : (s.emit e).pc = s.pc := rfl
@[simp] theorem State.emit_sp (s : State) (e : Event) : (s.emit e).sp = s.sp := rfl
@[simp] theorem State.emit_stack (s : State) (e : Event) : (s.emit e).stack = s.stack := rfl
@[simp] theorem State.emit_dt (s : State) (e : Event) : (s.emit e).dt = s.dt := rfl
@[simp] theorem State.emit_st (s : State) (e : Event) : (s.emit e).st = s.st := rfl
@[simp] theorem State.emit_mem (s : State) (e : Event) : (s.emit e).mem = s.mem := rfl
@[simp] theorem State.emit_fb (s : State) (e : Event) : (s.emit e).fb = s.fb := rfl
@[simp] theorem State.emit_dirty (s : State) (e : Event) : (s.emit e).dirty = s.dirty := rfl
@[simp] theorem State.emit_latch (s : State) (e : Event) : (s.emit e).latch = s.latch := rfl
@[simp] theorem State.emit_fault (s : State) (e : Event) : (s.emit e).fault = s.fault := rfl
@[simp] theorem State.emit_run (s : State) (e : Event) : (s.emit e).run = s.run := rfl
@[simp] theorem State.emit_outcome (s : State) (e : Event) : (s.emit e).outcome = s.outcome := rfl
@[simp] theorem State.emit_tickEn (s : State) (e : Event) : (s.emit e).tickEn = s.tickEn := rfl
@[simp] theorem State.emit_rndIn (s : State) (e : Event) : (s.emit e).rndIn = s.rndIn := rfl
@[simp] theorem State.emit_draws (s : State) (e : Event) : (s.emit e).draws = s.draws := rfl
@[simp] theorem State.emit_loadable (s : State) (e : Event) : (s.emit e).loadable = s.loadable := rfl
@[simp] theorem State.emit_params (s : State) (e : Event) : (s.emit e).params = s.params := rfl
end emitFields

section drawnFields
@[simp] theorem State.drawn_v (s : State) : s.drawn.v = s.v := rfl
@[simp] theorem State.drawn_I (s : State) : s.drawn.I = s.I := rfl
@[simp] theorem State.drawn_pc (s : State) : s.drawn.pc = s.pc := rfl
@[simp] theorem State.drawn_sp (s : State) : s.drawn.sp = s.sp := rfl
@[simp] theorem State.drawn_stack (s : State) : s.drawn.stack = s.stack := rfl
@[simp] theorem State.drawn_dt (s : State) : s.drawn.dt = s.dt := rfl
@[simp] theorem State.drawn_st (s : State) : s.drawn.st = s.st := rfl
@[simp] theorem State.drawn_mem (s : State) : s.drawn.mem = s.mem := rfl
@[simp] theorem State.drawn_fb (s : State) : s.drawn.fb = s.fb := rfl
@[simp] theorem State.drawn_dirty (s : State) : s.drawn.dirty = s.dirty := rfl
@[simp] theorem State.drawn_latch (s : State) : s.drawn.latch = s.latch := rfl
@[simp] theorem State.drawn_fault (s : State) : s.drawn.fault = s.fault := rfl
@[simp] theorem State.drawn_run (s : State) : s.drawn.run = s.run := rfl
@[simp] theorem State.drawn_outcome (s : State) : s.drawn.outcome = s.outcome := rfl
@[simp] theorem State.drawn_tickEn (s : State) : s.drawn.tickEn = s.tickEn := rfl
@[simp] theorem State.drawn_events (s : State) : s.drawn.events = s.events := rfl
@[simp] theorem State.drawn_loadable (s : State) : s.drawn.loadable = s.loadable := rfl
@[simp] theorem State.drawn_params (s : State) : s.drawn.params = s.params := rfl
end drawnFields

/-! Reading through a state written out field by field. These are not simp lemmas, since they fold what unfolding getV or
memRead opens: name them in the call, `simp [State.getV_mk, State.v_getElem]`. -/

theorem State.v_getElem (s : State) (r : Reg) : s.v[r.toNat]'r.isLt = s.getV r := rfl

theorem State.getV_mk (v : Vector Byte 16) (I : Word) (pc : Addr) (sp : Fin 17) (stack : Vector Addr 16)
    (dt st : Byte) (mem : Memory) (fb : Framebuffer) (dirty : Bool) (latch : Vector Bool 16) (fault : FaultCode)
    (run : RunState) (outcome : StepEnd) (tickEn : Bool) (rndIn : List Byte) (draws : Nat) (events : List Event)
    (loadable : Bool) (params : Params) (r : Reg) :
    (State.mk v I pc sp stack dt st mem fb dirty latch fault run outcome tickEn rndIn draws events loadable
      params).getV r = v[r.toNat]'r.isLt := rfl

theorem State.read_mem (s : State) (a : Nat) :
    Memory.read s.params.font s.mem (a % memSize) = s.memRead a := rfl

theorem State.memRead_mk (v : Vector Byte 16) (I : Word) (pc : Addr) (sp : Fin 17) (stack : Vector Addr 16)
    (dt st : Byte) (mem : Memory) (fb : Framebuffer) (dirty : Bool) (latch : Vector Bool 16) (fault : FaultCode)
    (run : RunState) (outcome : StepEnd) (tickEn : Bool) (rndIn : List Byte) (draws : Nat) (events : List Event)
    (loadable : Bool) (params : Params) (a : Nat) :
    (State.mk v I pc sp stack dt st mem fb dirty latch fault run outcome tickEn rndIn draws events loadable
      params).memRead a = Memory.read params.font mem (a % memSize) := rfl

/-! What the updated field becomes. -/

@[simp] theorem State.setI_I (s : State) (n : Nat) :
    (s.setI n).I = BitVec.ofNat 16 (n % s.params.indexWrap.modulus) := rfl
@[simp] theorem State.emit_events (s : State) (e : Event) : (s.emit e).events = s.events ++ [e] := rfl
@[simp] theorem State.drawn_rndIn (s : State) : s.drawn.rndIn = s.rndIn.tail := rfl
@[simp] theorem State.drawn_draws (s : State) : s.drawn.draws = s.draws + 1 := rfl

/-- I after `I <- n`, as a number: n mod INDEX_WRAP. -/
theorem State.setI_toNat (s : State) (n : Nat) : (s.setI n).I.toNat = n % s.params.indexWrap.modulus := by
  have h : n % s.params.indexWrap.modulus < 65536 := by
    cases s.params.indexWrap <;> simp only [IndexWrap.modulus] <;> omega
  simp only [State.setI_I, BitVec.toNat_ofNat]
  omega

/-! Registers. -/

theorem reg_toNat_inj {x r : Reg} (h : x.toNat = r.toNat) : x = r := BitVec.eq_of_toNat_eq h

@[simp] theorem State.getV_setV_same (s : State) (x : Reg) (b : Byte) : (s.setV x b).getV x = b := by
  simp [State.getV, State.setV]

theorem State.getV_setV_ne (s : State) {x r : Reg} (b : Byte) (h : r ≠ x) : (s.setV x b).getV r = s.getV r := by
  have h' : x.toNat ≠ r.toNat := fun e => h (reg_toNat_inj e.symm)
  simp [State.getV, State.setV, h']

/-- Everything a register write does to the registers. -/
theorem State.getV_setV (s : State) (x r : Reg) (b : Byte) :
    (s.setV x b).getV r = if r = x then b else s.getV r := by
  split
  · next h => rw [h, State.getV_setV_same]
  · next h => exact State.getV_setV_ne s b h

@[simp] theorem State.getV_setFlag_vf (s : State) (f : Bool) : (s.setFlag f).getV VF = flagByte f :=
  State.getV_setV_same s VF (flagByte f)

theorem State.getV_setFlag_ne (s : State) {r : Reg} (f : Bool) (h : r ≠ VF) : (s.setFlag f).getV r = s.getV r :=
  State.getV_setV_ne s (flagByte f) h

/-- Two states whose registers read alike have equal register files. -/
theorem State.v_ext {s t : State} (h : ∀ r, t.getV r = s.getV r) : t.v = s.v := by
  apply Vector.ext
  intro k hk
  have := h (BitVec.ofNat 4 k)
  have e : k % 16 = k := Nat.mod_eq_of_lt hk
  simpa [State.getV, e] using this

@[simp] theorem State.memRead_setV (s : State) (x : Reg) (b : Byte) (c : Nat) : (s.setV x b).memRead c = s.memRead c := rfl
@[simp] theorem State.effAddr_setV (s : State) (x : Reg) (b : Byte) (k : Nat) : (s.setV x b).effAddr k = s.effAddr k := rfl
@[simp] theorem State.memRead_setFlag (s : State) (f : Bool) (c : Nat) : (s.setFlag f).memRead c = s.memRead c := rfl
@[simp] theorem State.effAddr_setFlag (s : State) (f : Bool) (k : Nat) : (s.setFlag f).effAddr k = s.effAddr k := rfl
@[simp] theorem State.getV_setI (s : State) (n : Nat) (r : Reg) : (s.setI n).getV r = s.getV r := rfl
@[simp] theorem State.memRead_setI (s : State) (n : Nat) (c : Nat) : (s.setI n).memRead c = s.memRead c := rfl
@[simp] theorem State.getV_memWrite (s : State) (a : Nat) (b : Byte) (r : Reg) : (s.memWrite a b).getV r = s.getV r := rfl
@[simp] theorem State.effAddr_memWrite (s : State) (a : Nat) (b : Byte) (k : Nat) : (s.memWrite a b).effAddr k = s.effAddr k := rfl
@[simp] theorem State.getV_emit (s : State) (e : Event) (r : Reg) : (s.emit e).getV r = s.getV r := rfl
@[simp] theorem State.memRead_emit (s : State) (e : Event) (c : Nat) : (s.emit e).memRead c = s.memRead c := rfl
@[simp] theorem State.effAddr_emit (s : State) (e : Event) (k : Nat) : (s.emit e).effAddr k = s.effAddr k := rfl
@[simp] theorem State.getV_drawn (s : State) (r : Reg) : s.drawn.getV r = s.getV r := rfl
@[simp] theorem State.memRead_drawn (s : State) (c : Nat) : s.drawn.memRead c = s.memRead c := rfl
@[simp] theorem State.effAddr_drawn (s : State) (k : Nat) : s.drawn.effAddr k = s.effAddr k := rfl

end Sys2Proof.Machine
end

