-- ==== Sys2Proof/Laws/Memory.lean ====
section
/-! SUPPORT. The memory list: read after write, and every operation keeps the canonical form. -/

namespace Sys2Proof.Machine

/-- A canonical list from `low` on reads, below `low`, as unlisted. -/
theorem Memory.read_below {font : Font} {low : Nat} {m : Memory} (h : Memory.wfFrom font low m = true) {a : Nat}
    (ha : a < low) : Memory.read font m a = Memory.initial font a := by
  induction m generalizing low with
  | nil => rfl
  | cons e m ih =>
    obtain ⟨k, b⟩ := e
    simp only [Memory.wfFrom, Bool.and_eq_true, decide_eq_true_eq] at h
    have hne : a ≠ k := by omega
    simp only [Memory.read, hne, if_false]
    exact ih h.2 (by omega)

/-- A lower bound may be lowered. -/
theorem Memory.wfFrom_mono {font : Font} {low low' : Nat} {m : Memory} (h : Memory.wfFrom font low m = true)
    (hl : low' ≤ low) : Memory.wfFrom font low' m = true := by
  cases m with
  | nil => rfl
  | cons e m =>
    obtain ⟨k, b⟩ := e
    simp only [Memory.wfFrom, Bool.and_eq_true, decide_eq_true_eq] at h ⊢
    exact ⟨⟨⟨by omega, h.1.1.2⟩, h.1.2⟩, h.2⟩

/-- An entry in front of a list of higher addresses keeps the canonical form. -/
theorem Memory.wfFrom_entry {font : Font} {low a : Nat} {b : Byte} {m : Memory}
    (h : Memory.wfFrom font (a + 1) m = true) (hl : low ≤ a) (ha : a < memSize) :
    Memory.wfFrom font low (Memory.entry font a b m) = true := by
  unfold Memory.entry
  split
  · exact Memory.wfFrom_mono h (by omega)
  · next hb =>
    simp only [Memory.wfFrom, Bool.and_eq_true, decide_eq_true_eq]
    exact ⟨⟨⟨hl, ha⟩, hb⟩, h⟩

/-- A write keeps the canonical form. -/
theorem Memory.wfFrom_write {font : Font} {low a : Nat} (b : Byte) {m : Memory} (h : Memory.wfFrom font low m = true)
    (hl : low ≤ a) (ha : a < memSize) : Memory.wfFrom font low (Memory.write font m a b) = true := by
  induction m generalizing low with
  | nil => exact Memory.wfFrom_entry rfl hl ha
  | cons e m ih =>
    obtain ⟨k, c⟩ := e
    have h' := h
    simp only [Memory.wfFrom, Bool.and_eq_true, decide_eq_true_eq] at h
    simp only [Memory.write]
    split
    · next hlt =>
      refine Memory.wfFrom_entry ?_ hl ha
      simp only [Memory.wfFrom, Bool.and_eq_true, decide_eq_true_eq]
      exact ⟨⟨⟨by omega, h.1.1.2⟩, h.1.2⟩, h.2⟩
    · split
      · next heq =>
        subst heq
        exact Memory.wfFrom_entry h.2 hl ha
      · simp only [Memory.wfFrom, Bool.and_eq_true, decide_eq_true_eq]
        exact ⟨h.1, ih h.2 (by omega)⟩

theorem Memory.wf_write {font : Font} {m : Memory} {a : Nat} (b : Byte) (h : Memory.wf font m = true)
    (ha : a < memSize) : Memory.wf font (Memory.write font m a b) = true :=
  Memory.wfFrom_write b h (Nat.zero_le a) ha

/-- What an entry in front reads as. -/
theorem Memory.read_entry {font : Font} {a : Nat} {b : Byte} {m : Memory} (h : Memory.wfFrom font (a + 1) m = true)
    (c : Nat) : Memory.read font (Memory.entry font a b m) c = if c = a then b else Memory.read font m c := by
  unfold Memory.entry
  split
  · next hb =>
    split
    · next hc => rw [hc, Memory.read_below h (by omega), hb]
    · rfl
  · rfl

/-- Everything a write does to what addresses read as, on a canonical list. -/
theorem Memory.read_write {font : Font} {low : Nat} {m : Memory} {a : Nat} (b : Byte)
    (h : Memory.wfFrom font low m = true) (c : Nat) :
    Memory.read font (Memory.write font m a b) c = if c = a then b else Memory.read font m c := by
  induction m generalizing low with
  | nil => exact Memory.read_entry rfl c
  | cons e m ih =>
    obtain ⟨k, d⟩ := e
    simp only [Memory.wfFrom, Bool.and_eq_true, decide_eq_true_eq] at h
    simp only [Memory.write]
    split
    · next hlt =>
      refine Memory.read_entry ?_ c
      simp only [Memory.wfFrom, Bool.and_eq_true, decide_eq_true_eq]
      exact ⟨⟨⟨by omega, h.1.1.2⟩, h.1.2⟩, h.2⟩
    · split
      · next heq =>
        subst heq
        rw [Memory.read_entry h.2]
        by_cases hc : c = a <;> simp [Memory.read, hc]
      · next hne =>
        simp only [Memory.read]
        rw [ih h.2]
        by_cases hc : c = k
        · have : c ≠ a := by omega
          simp [hc]
          intro e
          omega
        · simp [hc]

/-! The same for the state's memory. -/

theorem State.memRead_mod (s : State) (a : Nat) : s.memRead (a % memSize) = s.memRead a := by
  simp [State.memRead]

theorem State.memOk_memWrite {s : State} (h : s.memOk) (a : Nat) (b : Byte) : (s.memWrite a b).memOk :=
  Memory.wf_write b h (Nat.mod_lt a (by decide))

/-- Everything MemWrite does to what MemRead answers. -/
theorem State.memRead_memWrite {s : State} (h : s.memOk) (a c : Nat) (b : Byte) :
    (s.memWrite a b).memRead c = if c % memSize = a % memSize then b else s.memRead c :=
  Memory.read_write b h (c % memSize)

theorem State.memOk_reset : State.reset.memOk := rfl

end Sys2Proof.Machine
end

