-- ==== Sys2Proof/Laws/Framebuffer.lean ====
section
/-! SUPPORT. What Toggle does to each pixel, and what drawing the columns of a sprite row does. -/

namespace Sys2Proof.Machine

theorem fbPixel_mod (fb : Framebuffer) (px py : Nat) : fbPixel fb (px % 64) (py % 32) = fbPixel fb px py := by
  simp [fbPixel]

@[simp] theorem fbPixel_blank (px py : Nat) : fbPixel fbBlank px py = false := by
  simp [fbPixel, fbBlank]

@[simp] theorem fbToggle_prev (fb : Framebuffer) (px py : Nat) : (fbToggle fb px py).2 = fbPixel fb px py := rfl

/-- Everything Toggle does to the pixels: the one at the wrapped coordinate flips. -/
theorem fbPixel_fbToggle (fb : Framebuffer) (px py qx qy : Nat) :
    fbPixel (fbToggle fb px py).1 qx qy =
      if qx % 64 = px % 64 ∧ qy % 32 = py % 32 then !fbPixel fb qx qy else fbPixel fb qx qy := by
  have hx : px % 64 < 64 := Nat.mod_lt px (by decide)
  have hq : qx % 64 < 64 := Nat.mod_lt qx (by decide)
  simp only [fbPixel, fbToggle, Vector.getElem_set]
  by_cases hy : py % 32 = qy % 32
  · simp only [hy, if_true, and_true]
    rw [BitVec.getLsbD_xor, BitVec.getLsbD_twoPow]
    by_cases he : qx % 64 = px % 64
    · simp [he, hx]
    · have he' : px % 64 ≠ qx % 64 := fun e => he e.symm
      simp [he, he']
  · have hy' : ¬(qy % 32 = py % 32) := fun e => hy e.symm
    simp [hy, hy']

/-- Equal pixels make equal framebuffers. -/
theorem fb_ext {a b : Framebuffer} (h : ∀ px py, fbPixel a px py = fbPixel b px py) : a = b := by
  apply Vector.ext
  intro y hy
  apply BitVec.eq_of_getLsbD_eq
  intro x hx
  have := h x y
  simpa [fbPixel, Nat.mod_eq_of_lt hy, Nat.mod_eq_of_lt hx] using this

end Sys2Proof.Machine
end

