-- ==== Sys2Proof/Laws/Ops.lean ====
section
/-! SUPPORT. One lemma per shared operation: everything it can do. -/

namespace Sys2Proof.Machine

/-! How an instruction ends. -/

theorem State.finish_next {s t : State} {a : Addr} (h : s.finish a = .next t) :
    t = { s with pc := a, outcome := .done } := by
  simpa [State.finish] using h.symm

theorem State.skipIf_next {s t : State} {c : Bool} (h : s.skipIf c = .next t) :
    t = { s with pc := if c then s.pc + 4 else s.pc + 2, outcome := .done } := State.finish_next h

theorem State.raise_next {s t : State} {f : FaultCode} (h : s.raise f = .next t) :
    t = { s with fault := f, outcome := .faulted } := by
  simpa [State.raise] using h.symm

theorem State.block_next {s t : State} (h : s.block = .next t) : t = { s with outcome := .blocked } := by
  simpa [State.block] using h.symm

/-! The stack. -/

theorem State.push_some {s t : State} {a : Addr} (h : s.push a = some t) :
    ∃ hs : s.sp.val < 16, t = { s with stack := s.stack.set s.sp.val a hs, sp := ⟨s.sp.val + 1, by omega⟩ } := by
  unfold State.push at h
  split at h
  · next hs => exact ⟨hs, by simpa using h.symm⟩
  · cases h

theorem State.push_of_lt {s : State} (a : Addr) (hs : s.sp.val < 16) :
    s.push a = some { s with stack := s.stack.set s.sp.val a hs, sp := ⟨s.sp.val + 1, by omega⟩ } := by
  simp [State.push, hs]

theorem State.push_full {s : State} (a : Addr) (hs : s.sp.val = 16) : s.push a = none := by
  simp [State.push, hs]

theorem State.pop_some {s t : State} {e : Addr} (h : s.pop = some (e, t)) :
    ∃ hs : 0 < s.sp.val, e = s.stack[s.sp.val - 1] ∧ t = { s with sp := ⟨s.sp.val - 1, by omega⟩ } := by
  unfold State.pop at h
  split at h
  · next hs =>
    simp only [Option.some.injEq, Prod.mk.injEq] at h
    exact ⟨hs, h.1.symm, h.2.symm⟩
  · cases h

theorem State.pop_of_pos {s : State} (hs : 0 < s.sp.val) :
    s.pop = some (s.stack[s.sp.val - 1], { s with sp := ⟨s.sp.val - 1, by omega⟩ }) := by
  simp [State.pop, hs]

theorem State.pop_empty {s : State} (hs : s.sp.val = 0) : s.pop = none := by
  simp [State.pop, hs]

/-! Keys. -/

theorem State.keyOperand_of_lt {s : State} {x : Reg} (h : (s.getV x).toNat < 16) :
    s.keyOperand x = some ⟨(s.getV x).toNat, h⟩ := by simp [State.keyOperand, h]

theorem State.keyOperand_of_ge {s : State} {x : Reg} (h : 16 ≤ (s.getV x).toNat) : s.keyOperand x = none := by
  simp [State.keyOperand, Nat.not_lt.mpr h]

theorem State.keyOperand_some {s : State} {x : Reg} {k : Fin 16} (h : s.keyOperand x = some k) :
    (s.getV x).toNat = k.val := by
  unfold State.keyOperand at h
  split at h
  · next hk => simpa using congrArg (·.val) (Option.some.inj h)
  · cases h

theorem State.keyOperand_none {s : State} {x : Reg} (h : s.keyOperand x = none) : 16 ≤ (s.getV x).toNat := by
  unfold State.keyOperand at h
  split at h
  · cases h
  · omega

theorem State.leastKey_none {s : State} : s.leastKey = none ↔ ∀ k, s.key k = false := by
  simp [State.leastKey, List.find?_eq_none]

/-- The least pressed key is pressed, and no lower key is. -/
theorem State.leastKey_some {s : State} {k : Fin 16} (h : s.leastKey = some k) :
    s.key k = true ∧ ∀ j, j < k → s.key j = false := by
  unfold State.leastKey at h
  rw [List.find?_eq_some_iff_getElem] at h
  obtain ⟨hk, n, hn, he, hlt⟩ := h
  refine ⟨by simpa using hk, fun j hj => ?_⟩
  have hkn : k.val = n := by
    have := congrArg Fin.val he
    simpa using this.symm
  have := hlt j.val (by omega)
  simpa using this

/-! The random byte. -/

@[simp] theorem State.rndByte_cons (s : State) (b : Byte) (bs : List Byte) (h : s.rndIn = b :: bs) : s.rndByte = b := by
  simp [State.rndByte, h]

@[simp] theorem State.rndByte_free (s : State) (h : s.rndIn = []) : s.rndByte = Config.freeRnd s.draws := by
  simp [State.rndByte, h]

/-! Bulk stores and loads. -/

/-- A bulk store changes nothing but memory. -/
theorem State.storeRegs_eq (s : State) (n : Nat) : s.storeRegs n = { s with mem := (s.storeRegs n).mem } := by
  induction n with
  | zero => rfl
  | succ n ih =>
    rw [State.storeRegs, State.memWrite]
    rw [ih]

theorem State.memOk_storeRegs {s : State} (h : s.memOk) (n : Nat) : (s.storeRegs n).memOk := by
  induction n with
  | zero => exact h
  | succ n ih => exact State.memOk_memWrite ih _ _

/-- Everything a bulk store of n registers, n at most 16, does to what MemRead answers. -/
theorem State.memRead_storeRegs {s : State} (h : s.memOk) {n : Nat} (hn : n ≤ 16) (c : Nat) :
    (∀ k, k < n → c % memSize = s.effAddr k % memSize → (s.storeRegs n).memRead c = s.getV (BitVec.ofNat 4 k)) ∧
    ((∀ k, k < n → c % memSize ≠ s.effAddr k % memSize) → (s.storeRegs n).memRead c = s.memRead c) := by
  induction n with
  | zero => exact ⟨fun k hk => absurd hk (Nat.not_lt_zero k), fun _ => rfl⟩
  | succ n ih =>
    obtain ⟨ih1, ih2⟩ := ih (by omega)
    simp only [State.storeRegs, State.memRead_memWrite (State.memOk_storeRegs h n)]
    refine ⟨fun k hk hc => ?_, fun hc => ?_⟩
    · split
      · next he =>
        have : k = n := by
          simp only [State.effAddr, memSize] at hc he
          omega
        rw [this]
      · next he =>
        have : k ≠ n := fun e => he (e ▸ hc)
        exact ih1 k (by omega) hc
    · rw [if_neg (hc n (by omega))]
      exact ih2 fun k hk => hc k (by omega)

/-- A bulk load changes nothing but the registers. -/
theorem State.loadRegs_eq (s : State) (n : Nat) : s.loadRegs n = { s with v := (s.loadRegs n).v } := by
  induction n with
  | zero => rfl
  | succ n ih =>
    rw [State.loadRegs, State.setV]
    rw [ih]

/-- Everything a bulk load of n registers, n at most 16, does to the registers. -/
theorem State.getV_loadRegs (s : State) {n : Nat} (hn : n ≤ 16) (r : Reg) :
    (s.loadRegs n).getV r = if r.toNat < n then s.memRead (s.effAddr r.toNat) else s.getV r := by
  induction n with
  | zero => simp [State.loadRegs]
  | succ n ih =>
    have ih := ih (by omega)
    simp only [State.loadRegs, State.getV_setV, ih]
    have hr : r = BitVec.ofNat 4 n ↔ r.toNat = n := by
      constructor
      · intro e
        rw [e, BitVec.toNat_ofNat]
        exact Nat.mod_eq_of_lt (by omega)
      · intro e
        apply BitVec.eq_of_toNat_eq
        rw [BitVec.toNat_ofNat, e]
        exact (Nat.mod_eq_of_lt (by omega)).symm
    by_cases he : r.toNat = n
    · simp [hr.mpr he, Nat.mod_eq_of_lt (show n < 16 by omega)]
    · have hne : ¬(r = BitVec.ofNat 4 n) := fun e => he (hr.mp e)
      have hlt : r.toNat < n + 1 ↔ r.toNat < n := by omega
      simp [hne, hlt]

/-! The timers. -/

/-- Everything a tick does: both timers down by 1 to at least 0, and BEEP when ST was 1. -/
theorem State.timerTick_eq (s : State) :
    s.timerTick = { s with
      dt := if s.dt.toNat > 0 then s.dt - 1 else s.dt
      st := if s.st.toNat > 0 then s.st - 1 else s.st
      events := if s.st = 1 then s.events ++ [.beep] else s.events } := by
  unfold State.timerTick State.tickSound State.tickDelay State.emit
  by_cases hd : s.dt.toNat > 0 <;> by_cases hs : s.st.toNat > 0 <;> by_cases h1 : s.st = 1 <;>
    simp_all

/-- The end of a step changes the timers and the events, and nothing else. -/
theorem State.endStep_eq (s : State) :
    s.endStep = { s with dt := s.endStep.dt, st := s.endStep.st, events := s.endStep.events } := by
  unfold State.endStep
  split
  · rw [State.timerTick_eq]
  · rfl

/-! The sprite loops. -/

/-- Some set bit among the first n columns of a row of sprite byte `b` falls on column px. -/
def RowCovers (b : Byte) (vx n px : Nat) : Prop :=
  ∃ col, col < n ∧ spriteBit b col = true ∧ (vx + col) % 64 = px % 64

theorem rowCovers_succ {b : Byte} {vx n px : Nat} :
    RowCovers b vx (n + 1) px ↔ RowCovers b vx n px ∨ (spriteBit b n = true ∧ (vx + n) % 64 = px % 64) := by
  constructor
  · rintro ⟨col, hc, hs, he⟩
    by_cases h : col = n
    · exact .inr (h ▸ ⟨hs, he⟩)
    · exact .inl ⟨col, by omega, hs, he⟩
  · rintro (⟨col, hc, hs, he⟩ | ⟨hs, he⟩)
    · exact ⟨col, by omega, hs, he⟩
    · exact ⟨n, by omega, hs, he⟩

/-- The pixels after n columns of one row, n at most 8: those the row covers flip, the others stay. -/
theorem drawColumns_pixel (b : Byte) (vx y : Nat) {n : Nat} (hn : n ≤ 8) (acc : Framebuffer × Bool) (px py : Nat) :
    (RowCovers b vx n px ∧ y % 32 = py % 32 →
      fbPixel (drawColumns b vx y n acc).1 px py = !fbPixel acc.1 px py) ∧
    (¬(RowCovers b vx n px ∧ y % 32 = py % 32) →
      fbPixel (drawColumns b vx y n acc).1 px py = fbPixel acc.1 px py) := by
  induction n with
  | zero => exact ⟨fun ⟨⟨_, h, _⟩, _⟩ => absurd h (Nat.not_lt_zero _), fun _ => rfl⟩
  | succ n ih =>
    obtain ⟨ih1, ih2⟩ := ih (by omega)
    have hnew : (vx + n) % 64 = px % 64 → ¬RowCovers b vx n px := by
      rintro h ⟨col, hc, -, he⟩
      omega
    rw [rowCovers_succ]
    simp only [drawColumns]
    split
    · next hb =>
      rw [fbPixel_fbToggle]
      split
      · next h =>
        have hold := ih2 fun h' => hnew h.1.symm h'.1
        exact ⟨fun _ => by rw [hold], fun h' => absurd ⟨.inr ⟨hb, h.1.symm⟩, h.2.symm⟩ h'⟩
      · next h =>
        refine ⟨fun ⟨hc, hy⟩ => ih1 ⟨?_, hy⟩, fun h' => ih2 fun hc => h' ⟨.inl hc.1, hc.2⟩⟩
        rcases hc with hc | hc
        · exact hc
        · exact absurd ⟨hc.2.symm, hy.symm⟩ h
    · next hb =>
      refine ⟨fun ⟨hc, hy⟩ => ih1 ⟨?_, hy⟩, fun h' => ih2 fun hc => h' ⟨.inl hc.1, hc.2⟩⟩
      rcases hc with hc | hc
      · exact hc
      · exact absurd hc.1 hb

/-- The collision after n columns of one row, n at most 8: some set bit fell on a lit pixel. -/
theorem drawColumns_hit (b : Byte) (vx y : Nat) {n : Nat} (hn : n ≤ 8) (acc : Framebuffer × Bool) :
    (drawColumns b vx y n acc).2 = true ↔
      acc.2 = true ∨ ∃ col, col < n ∧ spriteBit b col = true ∧ fbPixel acc.1 (vx + col) y = true := by
  induction n with
  | zero => simp [drawColumns]
  | succ n ih =>
    have ih := ih (by omega)
    have hold : fbPixel (drawColumns b vx y n acc).1 (vx + n) y = fbPixel acc.1 (vx + n) y := by
      refine (drawColumns_pixel b vx y (by omega) acc (vx + n) y).2 ?_
      rintro ⟨⟨col, hc, -, he⟩, -⟩
      omega
    simp only [drawColumns]
    split
    · next hb =>
      simp only [fbToggle_prev, Bool.or_eq_true, ih, hold]
      constructor
      · rintro ((h | ⟨col, hc, hs, hp⟩) | h)
        · exact .inl h
        · exact .inr ⟨col, by omega, hs, hp⟩
        · exact .inr ⟨n, by omega, hb, h⟩
      · rintro (h | ⟨col, hc, hs, hp⟩)
        · exact .inl (.inl h)
        · by_cases he : col = n
          · exact .inr (he ▸ hp)
          · exact .inl (.inr ⟨col, by omega, hs, hp⟩)
    · next hb =>
      rw [ih]
      constructor
      · rintro (h | ⟨col, hc, hs, hp⟩)
        · exact .inl h
        · exact .inr ⟨col, by omega, hs, hp⟩
      · rintro (h | ⟨col, hc, hs, hp⟩)
        · exact .inl h
        · by_cases he : col = n
          · exact absurd (he ▸ hs) hb
          · exact .inr ⟨col, by omega, hs, hp⟩

/-- Some set bit of the sprite bytes `rows`, drawn from row y on, falls on pixel (px, py). -/
def RowsCover (rows : List Byte) (vx y px py : Nat) : Prop :=
  ∃ r col, ∃ hr : r < rows.length, col < 8 ∧ spriteBit rows[r] col = true ∧ (vx + col) % 64 = px % 64 ∧ (y + r) % 32 = py % 32


/-- The pixels after the whole sprite, of at most 32 rows: those it covers flip, the others stay. -/
theorem drawRows_pixel (vx y : Nat) (rows : List Byte) (hl : rows.length ≤ 32) (acc : Framebuffer × Bool)
    (px py : Nat) :
   (RowsCover rows vx y px py → fbPixel (drawRows vx y rows acc).1 px py = !fbPixel acc.1 px py) ∧
   (¬ RowsCover rows vx y px py → fbPixel (drawRows vx y rows acc).1 px py = fbPixel acc.1 px py) := by
  induction rows generalizing y acc with
  | nil => exact ⟨fun ⟨r, c, hr, _⟩ => absurd hr (Nat.not_lt_zero _), fun _ => rfl⟩
  | cons b rows ih =>
    simp only [List.length_cons] at hl
    obtain ⟨i1, i2⟩ := ih (y+1) (by omega) (drawColumns b vx y 8 acc)
    obtain ⟨c1, c2⟩ := drawColumns_pixel b vx y (le_refl 8) acc px py
    simp only [drawRows]
    have hiff : RowsCover (b :: rows) vx y px py ↔ (RowCovers b vx 8 px ∧ y % 32 = py % 32) ∨ RowsCover rows vx (y+1) px py := by
      constructor
      · rintro ⟨r, col, hr, hc, hs, hx, hy⟩
        cases r with
        | zero => exact .inl ⟨⟨col, hc, hs, hx⟩, hy⟩
        | succ r => exact .inr ⟨r, col, by simpa using hr, hc, by simpa using hs, hx, by rw [← hy]; congr 1; omega⟩
      · rintro (⟨⟨col, hc, hs, hx⟩, hy⟩ | ⟨r, col, hr, hc, hs, hx, hy⟩)
        · exact ⟨0, col, by simp, hc, hs, hx, hy⟩
        · exact ⟨r+1, col, by simpa using hr, hc, by simpa using hs, hx, by rw [← hy]; congr 1; omega⟩
    rw [hiff]
    have hex : ¬ ((RowCovers b vx 8 px ∧ y % 32 = py % 32) ∧ RowsCover rows vx (y+1) px py) := by
      rintro ⟨⟨-, hy⟩, ⟨r, col, hr, hc, hs, hx, hy'⟩⟩
      omega
    by_cases h1 : (RowCovers b vx 8 px ∧ y % 32 = py % 32)
    · have h2 : ¬ RowsCover rows vx (y+1) px py := fun h => hex ⟨h1, h⟩
      exact ⟨fun _ => by rw [i2 h2, c1 h1], fun h => absurd (.inl h1) h⟩
    · by_cases h2 : RowsCover rows vx (y+1) px py
      · exact ⟨fun _ => by rw [i1 h2, c2 h1], fun h => absurd (.inr h2) h⟩
      · exact ⟨fun h => absurd h (by tauto), fun _ => by rw [i2 h2, c2 h1]⟩

/-- Coordinates that wrap to the same pixel read the same. -/
theorem fbPixel_congr (fb : Framebuffer) {a b c d : Nat} (h : a % 64 = b % 64) (h' : c % 32 = d % 32) :
    fbPixel fb a c = fbPixel fb b d := by
  rw [← fbPixel_mod fb a c, ← fbPixel_mod fb b d, h, h']

/-- The collision after the whole sprite: some set bit fell on a pixel that was lit before the draw. -/
theorem drawRows_hit (vx y : Nat) (rows : List Byte) (hl : rows.length ≤ 32) (acc : Framebuffer × Bool) :
   (drawRows vx y rows acc).2 = true ↔ acc.2 = true ∨ ∃ px py, RowsCover rows vx y px py ∧ fbPixel acc.1 px py = true := by
  induction rows generalizing y acc with
  | nil => simp [drawRows, RowsCover]
  | cons b rows ih =>
    simp only [List.length_cons] at hl
    simp only [drawRows]
    rw [ih (y+1) (by omega), drawColumns_hit b vx y (le_refl 8)]
    have old : ∀ px py, RowsCover rows vx (y+1) px py → fbPixel (drawColumns b vx y 8 acc).1 px py = fbPixel acc.1 px py := by
      intro px py h
      refine (drawColumns_pixel b vx y (le_refl 8) acc px py).2 ?_
      rintro ⟨-, hy⟩
      obtain ⟨r, col, hr, hc, hs, hx, hy'⟩ := h
      omega
    constructor
    · rintro ((h | ⟨col, hc, hs, hp⟩) | ⟨px, py, hcov, hp⟩)
      · exact .inl h
      · exact .inr ⟨vx+col, y, ⟨0, col, by simp, hc, hs, rfl, rfl⟩, hp⟩
      · rw [old px py hcov] at hp
        obtain ⟨r, col, hr, hc, hs, hx, hy⟩ := hcov
        exact .inr ⟨px, py, ⟨r+1, col, by simpa using hr, hc, by simpa using hs, hx, by rw [← hy]; congr 1; omega⟩, hp⟩
    · rintro (h | ⟨px, py, ⟨r, col, hr, hc, hs, hx, hy⟩, hp⟩)
      · exact .inl (.inl h)
      · cases r with
        | zero => exact .inl (.inr ⟨col, hc, hs, by rw [← hp]; exact fbPixel_congr _ hx hy⟩)
        | succ r =>
          have hcov : RowsCover rows vx (y+1) px py := ⟨r, col, by simpa using hr, hc, by simpa using hs, hx, by rw [← hy]; congr 1; omega⟩
          exact .inr ⟨px, py, hcov, by rw [old _ _ hcov]; exact hp⟩

/-! Host copies. -/

/-- An image copy changes nothing but memory. -/
theorem State.loadImageAt_eq (s : State) (a : Nat) (image : List Byte) :
    s.loadImageAt a image = { s with mem := (s.loadImageAt a image).mem } := by
  induction image generalizing s a with
  | nil => rfl
  | cons b image ih =>
    rw [State.loadImageAt, ih]
    rfl

theorem State.memOk_loadImageAt {s : State} (h : s.memOk) (a : Nat) (image : List Byte) :
    (s.loadImageAt a image).memOk := by
  induction image generalizing s a with
  | nil => exact h
  | cons b image ih => exact ih (State.memOk_memWrite h a b) (a + 1)

/-- Everything an image copy that stays below 4096 does to what MemRead answers. -/
theorem State.memRead_loadImageAt {s : State} (h : s.memOk) (a : Nat) (im : List Byte) (ha : a + im.length ≤ 4096) :
    (∀ k (hk : k < im.length), (s.loadImageAt a im).memRead (a + k) = im[k]) ∧
    (∀ c, c < 4096 → (c < a ∨ a + im.length ≤ c) → (s.loadImageAt a im).memRead c = s.memRead c) := by
  induction im generalizing s a with
  | nil => exact ⟨fun k hk => absurd hk (Nat.not_lt_zero _), fun c _ _ => rfl⟩
  | cons b im ih =>
    simp only [List.length_cons] at ha
    obtain ⟨i1, i2⟩ := ih (State.memOk_memWrite h a b) (a+1) (by omega)
    refine ⟨fun k hk => ?_, fun c hc hr => ?_⟩
    · cases k with
      | zero =>
        refine (i2 a (by omega) (.inl (by omega))).trans ?_
        rw [State.memRead_memWrite h]; simp
      | succ k =>
        have := i1 k (by simpa using hk)
        rw [show a + 1 + k = a + (k+1) by omega] at this
        exact this
    · simp only [List.length_cons] at hr
      refine (i2 c hc (by omega)).trans ?_
      rw [State.memRead_memWrite h, if_neg]
      rw [Nat.mod_eq_of_lt hc, Nat.mod_eq_of_lt (by simp only [memSize]; omega)]; omega

/-! One step. -/

/-- Everything a step can do. -/
theorem step_cases {s t : State} (h : step s = .next t) :
    (s.fault ≠ .none ∧ t = { s with outcome := .faulted }) ∨
    (s.fault = .none ∧ ∃ u, executePhase s.fetchWord s = .next u ∧ t = u.endStep) := by
  unfold step at h
  split at h
  · next hf =>
    refine .inr ⟨hf, ?_⟩
    split at h
    · next u hu => exact ⟨u, hu, (Host.Outcome.next.inj h).symm⟩
    · cases h
    · cases h
  · next hf => exact .inl ⟨hf, (Host.Outcome.next.inj h).symm⟩

/-- Everything the execute phase can do: the decoded instruction's meaning, or R220's rule for an UNKNOWN word. -/
theorem executePhase_cases {w : Word} {s u : State} (h : executePhase w s = .next u) :
    (∃ i, decodeWord w = some i ∧ exec i s = .next u) ∨
    (decodeWord w = none ∧ u = { s with events := s.events ++ [.diag w s.pc], pc := s.pc + 2, outcome := .done }) := by
  unfold executePhase at h
  split at h
  · next i hi => exact .inl ⟨i, hi, h⟩
  · next hi => exact .inr ⟨hi, State.finish_next h⟩

/-! Runs. -/

theorem core_run_zero (s : State) : Sys2Proof.core.run 0 s = .next s := rfl

/-- One more step in front of a run. -/
theorem core_run_succ {s t : State} (n : Nat) (h : step s = .next t) :
    Sys2Proof.core.run (n + 1) s = Sys2Proof.core.run n t := by
  have h' : Sys2Proof.core.step s = .next t := h
  simp only [Host.Core.run, h']

end Sys2Proof.Machine
end

