-- ==== Sys2Proof/Laws/PerInstr.lean ====
section
/-! SUPPORT. A law stated per instruction: the word an instruction encodes to selects a row of the opcode map
(spec/30_encoding.md R85, R86). -/

namespace Sys2Proof.Laws.RowSelected

/-- The word of `i` selects some row of the table. -/
def Statement (i : Instr) : Prop := (opcodeTable.any fun r => r.selects (encode i)) = true

theorem cls : Statement .cls := by
  unfold Statement
  decide

theorem ret : Statement .ret := by
  unfold Statement
  decide

theorem jp (nnn : Addr) : Statement (.jp nnn) := by
  simp [Statement, encode, opcodeTable, rows0to7, rows8, rows9toE, rowsF, formA_eq, selects_formXY, fieldOP, fieldX, fieldY, fieldN]

theorem call (nnn : Addr) : Statement (.call nnn) := by
  simp [Statement, encode, opcodeTable, rows0to7, rows8, rows9toE, rowsF, formA_eq, selects_formXY, fieldOP, fieldX, fieldY, fieldN]

theorem seImm (x : Reg) (kk : Byte) : Statement (.seImm x kk) := by
  simp [Statement, encode, opcodeTable, rows0to7, rows8, rows9toE, rowsF, formXK_eq, selects_formXY, fieldOP, fieldX, fieldY, fieldN]

theorem sneImm (x : Reg) (kk : Byte) : Statement (.sneImm x kk) := by
  simp [Statement, encode, opcodeTable, rows0to7, rows8, rows9toE, rowsF, formXK_eq, selects_formXY, fieldOP, fieldX, fieldY, fieldN]

theorem seReg (x : Reg) (y : Reg) : Statement (.seReg x y) := by
  simp [Statement, encode, opcodeTable, rows0to7, rows8, rows9toE, rowsF, selects_formXY, fieldOP, fieldX, fieldY, fieldN]

theorem ldImm (x : Reg) (kk : Byte) : Statement (.ldImm x kk) := by
  simp [Statement, encode, opcodeTable, rows0to7, rows8, rows9toE, rowsF, formXK_eq, selects_formXY, fieldOP, fieldX, fieldY, fieldN]

theorem addImm (x : Reg) (kk : Byte) : Statement (.addImm x kk) := by
  simp [Statement, encode, opcodeTable, rows0to7, rows8, rows9toE, rowsF, formXK_eq, selects_formXY, fieldOP, fieldX, fieldY, fieldN]

theorem ldReg (x : Reg) (y : Reg) : Statement (.ldReg x y) := by
  simp [Statement, encode, opcodeTable, rows0to7, rows8, rows9toE, rowsF, selects_formXY, fieldOP, fieldX, fieldY, fieldN]

theorem orReg (x : Reg) (y : Reg) : Statement (.orReg x y) := by
  simp [Statement, encode, opcodeTable, rows0to7, rows8, rows9toE, rowsF, selects_formXY, fieldOP, fieldX, fieldY, fieldN]

theorem andReg (x : Reg) (y : Reg) : Statement (.andReg x y) := by
  simp [Statement, encode, opcodeTable, rows0to7, rows8, rows9toE, rowsF, selects_formXY, fieldOP, fieldX, fieldY, fieldN]

theorem xorReg (x : Reg) (y : Reg) : Statement (.xorReg x y) := by
  simp [Statement, encode, opcodeTable, rows0to7, rows8, rows9toE, rowsF, selects_formXY, fieldOP, fieldX, fieldY, fieldN]

theorem addReg (x : Reg) (y : Reg) : Statement (.addReg x y) := by
  simp [Statement, encode, opcodeTable, rows0to7, rows8, rows9toE, rowsF, selects_formXY, fieldOP, fieldX, fieldY, fieldN]

theorem subReg (x : Reg) (y : Reg) : Statement (.subReg x y) := by
  simp [Statement, encode, opcodeTable, rows0to7, rows8, rows9toE, rowsF, selects_formXY, fieldOP, fieldX, fieldY, fieldN]

theorem shr (x : Reg) (y : Reg) : Statement (.shr x y) := by
  simp [Statement, encode, opcodeTable, rows0to7, rows8, rows9toE, rowsF, selects_formXY, fieldOP, fieldX, fieldY, fieldN]

theorem subnReg (x : Reg) (y : Reg) : Statement (.subnReg x y) := by
  simp [Statement, encode, opcodeTable, rows0to7, rows8, rows9toE, rowsF, selects_formXY, fieldOP, fieldX, fieldY, fieldN]

theorem shl (x : Reg) (y : Reg) : Statement (.shl x y) := by
  simp [Statement, encode, opcodeTable, rows0to7, rows8, rows9toE, rowsF, selects_formXY, fieldOP, fieldX, fieldY, fieldN]

theorem sneReg (x : Reg) (y : Reg) : Statement (.sneReg x y) := by
  simp [Statement, encode, opcodeTable, rows0to7, rows8, rows9toE, rowsF, selects_formXY, fieldOP, fieldX, fieldY, fieldN]

theorem ldI (nnn : Addr) : Statement (.ldI nnn) := by
  simp [Statement, encode, opcodeTable, rows0to7, rows8, rows9toE, rowsF, formA_eq, selects_formXY, fieldOP, fieldX, fieldY, fieldN]

theorem jpV0 (nnn : Addr) : Statement (.jpV0 nnn) := by
  simp [Statement, encode, opcodeTable, rows0to7, rows8, rows9toE, rowsF, formA_eq, selects_formXY, fieldOP, fieldX, fieldY, fieldN]

theorem rnd (x : Reg) (kk : Byte) : Statement (.rnd x kk) := by
  simp [Statement, encode, opcodeTable, rows0to7, rows8, rows9toE, rowsF, formXK_eq, selects_formXY, fieldOP, fieldX, fieldY, fieldN]

theorem drw (x : Reg) (y : Reg) (n : Nibble) : Statement (.drw x y n) := by
  simp [Statement, encode, opcodeTable, rows0to7, rows8, rows9toE, rowsF, selects_formXY, fieldOP, fieldX, fieldY, fieldN]

theorem skp (x : Reg) : Statement (.skp x) := by
  simp [Statement, encode, opcodeTable, rows0to7, rows8, rows9toE, rowsF, formXS_eq, selects_formXY, fieldOP, fieldX, fieldY, fieldN]

theorem sknp (x : Reg) : Statement (.sknp x) := by
  simp [Statement, encode, opcodeTable, rows0to7, rows8, rows9toE, rowsF, formXS_eq, selects_formXY, fieldOP, fieldX, fieldY, fieldN]

theorem ldVxDt (x : Reg) : Statement (.ldVxDt x) := by
  simp [Statement, encode, opcodeTable, rows0to7, rows8, rows9toE, rowsF, formXS_eq, selects_formXY, fieldOP, fieldX, fieldY, fieldN]

theorem ldVxK (x : Reg) : Statement (.ldVxK x) := by
  simp [Statement, encode, opcodeTable, rows0to7, rows8, rows9toE, rowsF, formXS_eq, selects_formXY, fieldOP, fieldX, fieldY, fieldN]

theorem ldDtVx (x : Reg) : Statement (.ldDtVx x) := by
  simp [Statement, encode, opcodeTable, rows0to7, rows8, rows9toE, rowsF, formXS_eq, selects_formXY, fieldOP, fieldX, fieldY, fieldN]

theorem ldStVx (x : Reg) : Statement (.ldStVx x) := by
  simp [Statement, encode, opcodeTable, rows0to7, rows8, rows9toE, rowsF, formXS_eq, selects_formXY, fieldOP, fieldX, fieldY, fieldN]

theorem addI (x : Reg) : Statement (.addI x) := by
  simp [Statement, encode, opcodeTable, rows0to7, rows8, rows9toE, rowsF, formXS_eq, selects_formXY, fieldOP, fieldX, fieldY, fieldN]

theorem ldF (x : Reg) : Statement (.ldF x) := by
  simp [Statement, encode, opcodeTable, rows0to7, rows8, rows9toE, rowsF, formXS_eq, selects_formXY, fieldOP, fieldX, fieldY, fieldN]

theorem ldB (x : Reg) : Statement (.ldB x) := by
  simp [Statement, encode, opcodeTable, rows0to7, rows8, rows9toE, rowsF, formXS_eq, selects_formXY, fieldOP, fieldX, fieldY, fieldN]

theorem ldMemVx (x : Reg) : Statement (.ldMemVx x) := by
  simp [Statement, encode, opcodeTable, rows0to7, rows8, rows9toE, rowsF, formXS_eq, selects_formXY, fieldOP, fieldX, fieldY, fieldN]

theorem ldVxMem (x : Reg) : Statement (.ldVxMem x) := by
  simp [Statement, encode, opcodeTable, rows0to7, rows8, rows9toE, rowsF, formXS_eq, selects_formXY, fieldOP, fieldX, fieldY, fieldN]

end Sys2Proof.Laws.RowSelected
end

