-- ==== Sys2Proof/Tests/Slice0.lean ====
section
/-! SUPPORT. The model's own tests: what WellFormed refuses, every constructor's word, one-step tests, and for every
statement with hypotheses a state that meets them. Expected results are the manual's: spec/95_test_vectors.md (the
vector's name stands in the comment), or the rule named. -/

namespace Sys2Proof.Tests

open Sys2Proof.Machine

/-! ## Well-formedness -/

-- R247: a key number is 0 to 15.
theorem test_wellFormed_refuses_key_16 : HostCall.wellFormed (.setKey 16 true) = false := by decide
theorem test_wellFormed_takes_key_15 : HostCall.wellFormed (.setKey 15 true) = true := by decide
-- R264: an image has at most 3584 bytes.
theorem test_wellFormed_refuses_image_3585 : HostCall.wellFormed (.loadProgram (some (List.replicate 3585 0))) = false := by
  show decide ((List.replicate 3585 (0 : Byte)).length ≤ progMax) = false
  rw [List.length_replicate]
  rfl
theorem test_wellFormed_takes_image_3584 : HostCall.wellFormed (.loadProgram (some (List.replicate 3584 0))) = true := by
  show decide ((List.replicate 3584 (0 : Byte)).length ≤ progMax) = true
  rw [List.length_replicate]
  rfl

/-! ## Decoding: a word of every constructor, written out from R86, as OP, X, Y, N -/

theorem test_decode_cls : decodeWord 0b0000000011100000 = some .cls := by decide
theorem test_decode_ret : decodeWord 0b0000000011101110 = some .ret := by decide
theorem test_decode_jp : decodeWord 0b0001001000110100 = some (.jp 0x234) := by decide
theorem test_decode_call : decodeWord 0b0010101010111100 = some (.call 0xABC) := by decide
theorem test_decode_seImm : decodeWord 0b0011010100010000 = some (.seImm 0x5 0x10) := by decide
theorem test_decode_sneImm : decodeWord 0b0100011011110001 = some (.sneImm 0x6 0xF1) := by decide
theorem test_decode_seReg : decodeWord 0b0101000100100000 = some (.seReg 0x1 0x2) := by decide
theorem test_decode_ldImm : decodeWord 0b0110101001000010 = some (.ldImm 0xA 0x42) := by decide
theorem test_decode_addImm : decodeWord 0b0111001100000011 = some (.addImm 0x3 0x03) := by decide
theorem test_decode_ldReg : decodeWord 0b1000000100100000 = some (.ldReg 0x1 0x2) := by decide
theorem test_decode_orReg : decodeWord 0b1000000100100001 = some (.orReg 0x1 0x2) := by decide
theorem test_decode_andReg : decodeWord 0b1000000100100010 = some (.andReg 0x1 0x2) := by decide
theorem test_decode_xorReg : decodeWord 0b1000000100100011 = some (.xorReg 0x1 0x2) := by decide
theorem test_decode_addReg : decodeWord 0b1000000100100100 = some (.addReg 0x1 0x2) := by decide
theorem test_decode_subReg : decodeWord 0b1000000100100101 = some (.subReg 0x1 0x2) := by decide
theorem test_decode_shr : decodeWord 0b1000000111110110 = some (.shr 0x1 0xF) := by decide
theorem test_decode_subnReg : decodeWord 0b1000000100100111 = some (.subnReg 0x1 0x2) := by decide
theorem test_decode_shl : decodeWord 0b1000000100101110 = some (.shl 0x1 0x2) := by decide
theorem test_decode_sneReg : decodeWord 0b1001000100100000 = some (.sneReg 0x1 0x2) := by decide
theorem test_decode_ldI : decodeWord 0b1010001011110000 = some (.ldI 0x2F0) := by decide
theorem test_decode_jpV0 : decodeWord 0b1011001100000001 = some (.jpV0 0x301) := by decide
theorem test_decode_rnd : decodeWord 0b1100001100001111 = some (.rnd 0x3 0x0F) := by decide
theorem test_decode_drw : decodeWord 0b1101000100100101 = some (.drw 0x1 0x2 0x5) := by decide
theorem test_decode_skp : decodeWord 0b1110010010011110 = some (.skp 0x4) := by decide
theorem test_decode_sknp : decodeWord 0b1110010010100001 = some (.sknp 0x4) := by decide
theorem test_decode_ldVxDt : decodeWord 0b1111001100000111 = some (.ldVxDt 0x3) := by decide
theorem test_decode_ldVxK : decodeWord 0b1111001000001010 = some (.ldVxK 0x2) := by decide
theorem test_decode_ldDtVx : decodeWord 0b1111000100010101 = some (.ldDtVx 0x1) := by decide
theorem test_decode_ldStVx : decodeWord 0b1111000100011000 = some (.ldStVx 0x1) := by decide
theorem test_decode_addI : decodeWord 0b1111001000011110 = some (.addI 0x2) := by decide
theorem test_decode_ldF : decodeWord 0b1111000100101001 = some (.ldF 0x1) := by decide
theorem test_decode_ldB : decodeWord 0b1111000100110011 = some (.ldB 0x1) := by decide
theorem test_decode_ldMemVx : decodeWord 0b1111000101010101 = some (.ldMemVx 0x1) := by decide
theorem test_decode_ldVxMem : decodeWord 0b1111001001100101 = some (.ldVxMem 0x2) := by decide

-- R90: UNKNOWN words (TU-4 to TU-11, AL-33).
theorem test_decode_unknown_0 : decodeWord 0x0123 = none := by decide
theorem test_decode_unknown_5 : decodeWord 0x5121 = none := by decide
theorem test_decode_unknown_8 : decodeWord 0x8008 = none := by decide
theorem test_decode_unknown_9 : decodeWord 0x9121 = none := by decide
theorem test_decode_unknown_E : decodeWord 0xE000 = none := by decide
theorem test_decode_unknown_F : decodeWord 0xF0FF = none := by decide
-- R80: the byte at the lower address is the high one. R92: a decoder consumes two bytes.
theorem test_decode_bytes : decode [0x12, 0x34, 0x56] = .ok (.jp 0x234, [0x56]) ∧ decode [0x12] = .error .truncated := by
  decide
theorem test_decodeTableWord : decodeTableWord 16 0xA2F0 = some (.ldI 0x2F0) ∧ decodeTableWord 16 0x8008 = none := by
  decide

/-! ## One step each -/

/-- The start state of the manual's vectors: reset, DIRTY = 0, TICK_EN = 0, and what `edit` changes. The word is stored
at pc. -/
def start (w : Nat) (edit : State → State) : State :=
  (edit { State.reset with dirty := false, tickEn := false }).withFetchWord 16 w

/-- What `f` reads in the state after one step. -/
def after {α : Type} (s : State) (f : State → α) : Option α :=
  match step s with
  | .next t => some (f t)
  | .fault _ => none
  | .refused _ => none

-- CF-1.
theorem test_ret_adds_2 :
    after (start 0x00EE fun s => { s with sp := 1, stack := s.stack.set 0 0x204 })
      (fun t => (t.pc, t.sp)) = some (0x206, 0) := by decide
-- CF-3.
theorem test_ret_empty_faults :
    after (start 0x00EE fun s => s)
      (fun t => (t.pc, t.fault, t.outcome)) = some (0x200, .stackUnderflow, .faulted) := by decide
-- CF-5.
theorem test_jp :
    after (start 0x1234 fun s => s)
      (fun t => (t.pc, t.outcome)) = some (0x234, .done) := by decide
-- CF-8.
theorem test_call_pushes_pc0 :
    after (start 0x2210 fun s => { s with pc := 0x204 })
      (fun t => (t.pc, t.sp, t.stack[0])) = some (0x210, 1, 0x204) := by decide
-- CF-10.
theorem test_call_full_faults :
    after (start 0x2300 fun s => { s with sp := 16 })
      (fun t => (t.pc, t.sp, t.fault)) = some (0x200, 16, .stackOverflow) := by decide
-- CF-14.
theorem test_seImm_skips :
    after (start 0x3000 fun s => { s with pc := 0xFFE })
      (fun t => t.pc) = some 0x002 := by decide
-- CF-12.
theorem test_seImm_no_skip :
    after (start 0x3510 fun s => s.setV 5 0x11)
      (fun t => t.pc) = some 0x202 := by decide
-- CF-15.
theorem test_sneImm_skips :
    after (start 0x4510 fun s => s.setV 5 0x11)
      (fun t => t.pc) = some 0x204 := by decide
-- CF-16.
theorem test_sneImm_no_skip :
    after (start 0x4510 fun s => s.setV 5 0x10)
      (fun t => t.pc) = some 0x202 := by decide
-- CF-17.
theorem test_seReg_skips :
    after (start 0x5120 fun s => (s.setV 1 0x07).setV 2 0x07)
      (fun t => t.pc) = some 0x204 := by decide
-- CF-18.
theorem test_seReg_no_skip :
    after (start 0x5120 fun s => (s.setV 1 0x07).setV 2 0x08)
      (fun t => t.pc) = some 0x202 := by decide
-- CF-20.
theorem test_sneReg_skips :
    after (start 0x9120 fun s => (s.setV 1 0x01).setV 2 0x02)
      (fun t => t.pc) = some 0x204 := by decide
-- CF-21.
theorem test_sneReg_no_skip :
    after (start 0x9120 fun s => (s.setV 1 0x03).setV 2 0x03)
      (fun t => t.pc) = some 0x202 := by decide
-- CF-24.
theorem test_jpV0_wraps :
    after (start 0xBFFF fun s => s.setV 0 0xFF)
      (fun t => t.pc) = some 0x0FE := by decide
-- CF-26.
theorem test_fetch_wraps :
    after (start 0x12F0 fun s => { s with pc := 0xFFF })
      (fun t => t.pc) = some 0x2F0 := by decide
-- AL-1.
theorem test_ldImm :
    after (start 0x6A42 fun s => s)
      (fun t => (t.pc, t.getV 0xA)) = some (0x202, 0x42) := by decide
-- AL-3.
theorem test_addImm_wraps :
    after (start 0x7303 fun s => (s.setV 3 0xFE).setV VF 0x77)
      (fun t => (t.getV 3, t.getV VF)) = some (0x01, 0x77) := by decide
-- AL-5.
theorem test_addImm_vf :
    after (start 0x7F01 fun s => s.setV VF 0xFF)
      (fun t => t.getV VF) = some 0x00 := by decide
-- AL-6.
theorem test_ldReg :
    after (start 0x8120 fun s => s.setV 2 0x99)
      (fun t => (t.getV 1, t.getV 2)) = some (0x99, 0x99) := by decide
-- AL-7.
theorem test_orReg :
    after (start 0x8121 fun s => ((s.setV 1 0x0F).setV 2 0xF0).setV VF 0x55)
      (fun t => (t.getV 1, t.getV VF)) = some (0xFF, 0x55) := by decide
-- AL-8.
theorem test_andReg :
    after (start 0x8122 fun s => (s.setV 1 0x3C).setV 2 0x0F)
      (fun t => t.getV 1) = some 0x0C := by decide
-- AL-9.
theorem test_xorReg :
    after (start 0x8123 fun s => (s.setV 1 0xFF).setV 2 0x0F)
      (fun t => t.getV 1) = some 0xF0 := by decide
-- AL-11.
theorem test_addReg_carry :
    after (start 0x8124 fun s => (s.setV 1 0xFF).setV 2 0x02)
      (fun t => (t.getV 1, t.getV VF)) = some (0x01, 0x01) := by decide
-- AL-13.
theorem test_addReg_vf :
    after (start 0x8F14 fun s => (s.setV 1 0xF5).setV VF 0x10)
      (fun t => t.getV VF) = some 0x01 := by decide
-- AL-16.
theorem test_subReg_borrow :
    after (start 0x8125 fun s => (s.setV 1 0x05).setV 2 0x09)
      (fun t => (t.getV 1, t.getV VF)) = some (0xFC, 0x00) := by decide
-- AL-17.
theorem test_subReg_equal :
    after (start 0x8125 fun s => (s.setV 1 0x07).setV 2 0x07)
      (fun t => (t.getV 1, t.getV VF)) = some (0x00, 0x01) := by decide
-- AL-22.
theorem test_shr_ignores_y :
    after (start 0x81F6 fun s => (s.setV 1 0x04).setV VF 0xFF)
      (fun t => (t.getV 1, t.getV VF)) = some (0x02, 0x00) := by decide
-- AL-23.
theorem test_shr_vf :
    after (start 0x8F06 fun s => s.setV VF 0x03)
      (fun t => t.getV VF) = some 0x01 := by decide
-- AL-24.
theorem test_subnReg :
    after (start 0x8127 fun s => (s.setV 1 0x05).setV 2 0x09)
      (fun t => (t.getV 1, t.getV VF)) = some (0x04, 0x01) := by decide
-- AL-25.
theorem test_subnReg_borrow :
    after (start 0x8127 fun s => (s.setV 1 0x09).setV 2 0x05)
      (fun t => (t.getV 1, t.getV VF)) = some (0xFC, 0x00) := by decide
-- AL-27.
theorem test_shl :
    after (start 0x810E fun s => s.setV 1 0x81)
      (fun t => (t.getV 1, t.getV VF)) = some (0x02, 0x01) := by decide
-- AL-29.
theorem test_shl_vf :
    after (start 0x8F0E fun s => s.setV VF 0x7F)
      (fun t => t.getV VF) = some 0x00 := by decide
-- AL-30.
theorem test_rnd_masks :
    after (start 0xC30F fun s => { s with rndIn := [0xB7] })
      (fun t => (t.pc, t.getV 3, t.rndIn)) = some (0x202, 0x07, []) := by decide
-- IM-1.
theorem test_ldI :
    after (start 0xA2F0 fun s => { s with I := 0xFFFF })
      (fun t => (t.pc, t.I)) = some (0x202, 0x02F0) := by decide
-- IM-3.
theorem test_addI_past_12_bits :
    after (start 0xF21E fun s => { s.setV 2 0x01 with I := 0x0FFF })
      (fun t => (t.I, t.getV VF)) = some (0x1000, 0x01) := by decide
-- IM-4.
theorem test_addI_wraps :
    after (start 0xF21E fun s => { s.setV 2 0x01 with I := 0xFFFF })
      (fun t => (t.I, t.getV VF)) = some (0x0000, 0x01) := by decide
-- IM-8.
theorem test_ldF :
    after (start 0xF029 fun s => s.setV 0 0x0A)
      (fun t => t.I) = some 0x0032 := by decide
-- IM-9.
theorem test_ldF_above_15 :
    after (start 0xF029 fun s => s.setV 0 0x1A)
      (fun t => t.I) = some 0x0082 := by decide
-- IM-11.
theorem test_ldB :
    after (start 0xF033 fun s => { s.setV 0 0x7B with I := 0x300 })
      (fun t => (t.memRead 0x300, t.memRead 0x301, t.memRead 0x302, t.I)) = some (1, 2, 3, 0x300) := by decide
-- IM-14.
theorem test_ldB_wraps :
    after (start 0xF033 fun s => { s.setV 0 0x64 with I := 0xFFE })
      (fun t => (t.memRead 0xFFE, t.memRead 0xFFF, t.memRead 0x000)) = some (1, 0, 0) := by decide
-- IM-15.
theorem test_ldMemVx :
    after (start 0xF155 fun s => { (s.setV 0 0xAA).setV 1 0xBB with I := 0x300 })
      (fun t => (t.memRead 0x300, t.memRead 0x301, t.memRead 0x302, t.I)) = some (0xAA, 0xBB, 0, 0x302) := by decide
-- IM-17.
theorem test_ldMemVx_I_past_12_bits :
    after (start 0xF055 fun s => { s.setV 0 0x33 with I := 0xFFF })
      (fun t => (t.memRead 0xFFF, t.I)) = some (0x33, 0x1000) := by decide
-- IM-19.
theorem test_ldVxMem_wraps :
    after (start 0xF165 fun s => { s.memWrite 0xFFF 0x77 with I := 0xFFF })
      (fun t => (t.getV 0, t.getV 1, t.getV 2, t.I)) = some (0x77, 0xF0, 0, 0x1001) := by decide
-- DI-1.
theorem test_cls :
    after (start 0x00E0 fun s => { s with fb := (fbToggle (fbToggle s.fb 5 5).1 63 31).1 })
      (fun t => (t.pixel 5 5, t.pixel 63 31, t.dirty)) = some (false, false, true) := by decide
-- DI-11.
theorem test_drw_collision :
    after (start 0xD012 fun s => { (s.memWrite 0x300 0xC0).memWrite 0x301 0x80 with I := 0x300, fb := (fbToggle s.fb 1 0).1 })
      (fun t => (t.pixel 0 0, t.pixel 1 0, t.pixel 0 1, t.getV VF, t.dirty)) = some (true, false, true, 1, true) := by decide
-- DI-9.
theorem test_drw_wraps :
    after (start 0xD122 fun s => { s.memWrite 0xFFF 0x01 with I := 0xFFF })
      (fun t => (t.pixel 7 0, t.pixel 0 1, t.pixel 3 1, t.pixel 4 1, t.getV VF)) = some (true, true, true, false, 0) := by decide
-- KT-1.
theorem test_skp_pressed :
    after (start 0xE49E fun s => { s.setV 4 0x05 with latch := s.latch.set 5 true })
      (fun t => t.pc) = some 0x204 := by decide
-- KT-3.
theorem test_skp_range :
    after (start 0xE49E fun s => s.setV 4 0x10)
      (fun t => (t.pc, t.fault)) = some (0x200, .keyRange) := by decide
-- KT-5.
theorem test_sknp_pressed :
    after (start 0xE4A1 fun s => { s.setV 4 0x05 with latch := s.latch.set 5 true })
      (fun t => t.pc) = some 0x202 := by decide
-- KT-4.
theorem test_sknp_released :
    after (start 0xE4A1 fun s => s.setV 4 0x05)
      (fun t => t.pc) = some 0x204 := by decide
-- KT-8.
theorem test_ldVxDt_before_tick :
    after (start 0xF307 fun s => { s with dt := 3, tickEn := true })
      (fun t => (t.getV 3, t.dt)) = some (3, 2) := by decide
-- KT-9.
theorem test_ldVxK_blocks :
    after (start 0xF20A fun s => { s with dt := 5, st := 5, tickEn := true })
      (fun t => (t.pc, t.dt, t.st, t.outcome)) = some (0x200, 5, 5, .blocked) := by decide
-- KT-10.
theorem test_ldVxK_least :
    after (start 0xF20A fun s => { s with latch := (s.latch.set 0xC true).set 0xB true })
      (fun t => (t.pc, t.getV 2)) = some (0x202, 0x0B) := by decide
-- KT-14.
theorem test_ldDtVx_ticks :
    after (start 0xF015 fun s => { s.setV 0 0x05 with tickEn := true })
      (fun t => t.dt) = some 4 := by decide
-- KT-15.
theorem test_ldStVx :
    after (start 0xF018 fun s => s.setV 0 0x02)
      (fun t => (t.st, t.events)) = some (2, []) := by decide
-- KT-16.
theorem test_ldStVx_beeps :
    after (start 0xF018 fun s => { s.setV 0 0x01 with tickEn := true })
      (fun t => (t.st, t.events)) = some (0, [.beep]) := by decide
-- TU-4.
theorem test_unknown_ticks :
    after (start 0x0000 fun s => { s with dt := 3, st := 2, tickEn := true })
      (fun t => (t.pc, t.dt, t.st, t.events)) = some (0x202, 2, 1, [.diag 0x0000 0x200]) := by decide
-- TU-12.
theorem test_faulted_step_does_nothing :
    step { start 0x6001 id with fault := .keyRange, dt := 3, tickEn := true } =
      .next { start 0x6001 id with fault := .keyRange, dt := 3, tickEn := true, outcome := .faulted } := rfl
-- RS-2.
theorem test_loadProgram :
    hostRun State.reset [.loadProgram (some [0x12, 0x00]), .start, .issueStep 0 true] =
      { State.reset with mem := [(0x200, 0x12)], run := .running, loadable := false, rndIn := [0] } := rfl

/-! ## For every statement with hypotheses, states and operands that meet them -/

theorem witness_DecodingAnEncodedInstructionGivesItBack : (Instr.ldI 0x2F0).wellFormed = true := by decide
theorem witness_BytesThatDecodeAreTheEncoding : decode [0xA2, 0xF0, 0x7] = .ok (.ldI 0x2F0, [0x7]) := by decide
/-- A word that a row selects, and one that none selects. -/
theorem witness_AWordSelectsAtMostOneRow :
    (∃ r ∈ opcodeTable, 0xA2F0#16 &&& r.mask = r.pat) ∧ ∀ r ∈ opcodeTable, 0x8008#16 &&& r.mask ≠ r.pat := by decide
theorem witness_OnlyResetClearsAFault :
    ∃ t, HostCall.issueStep 0 true ≠ .reset ∧ ({ State.reset with fault := .keyRange, run := .running }).fault ≠ .none ∧
      hostCall (.issueStep 0 true) { State.reset with fault := .keyRange, run := .running } = .next (t, .unit) :=
  ⟨{ State.reset with fault := .keyRange, run := .running, outcome := .faulted, rndIn := [0] }, by decide, by decide, rfl⟩
/-- The invariant holds in a state with a written byte, and a step follows. -/
theorem witness_EveryStepKeepsTheInvariant : ∃ t, Inv (start 0x6A42 id) ∧ step (start 0x6A42 id) = .next t :=
  ⟨_, ⟨by decide, by decide, by decide⟩, rfl⟩
theorem witness_EveryHostRunKeepsTheInvariant : Inv (start 0x6A42 id) := ⟨by decide, by decide, by decide⟩
theorem witness_MemoriesThatReadAlikeAreEqual :
    Memory.wf defaultFont [(0x200, 0x12), (0xFFF, 0x34)] = true ∧
      ∀ a, a < 4096 → Memory.read defaultFont [(0x200, 0x12), (0xFFF, 0x34)] a =
        Memory.read defaultFont [(0x200, 0x12), (0xFFF, 0x34)] a := ⟨by decide, fun _ _ => rfl⟩
/-- A faulted core, an instruction at pc, and an UNKNOWN word at pc. -/
theorem witness_StepRunsTheDecodedInstruction :
    ({ State.reset with fault := .stackOverflow }).fault ≠ .none ∧
    ((start 0x6A42 id).fault = .none ∧ (Instr.ldImm 0xA 0x42).wellFormed = true ∧
      decode [(start 0x6A42 id).memRead (start 0x6A42 id).pc.toNat,
        (start 0x6A42 id).memRead ((start 0x6A42 id).pc.toNat + 1)] = .ok (.ldImm 0xA 0x42, [])) ∧
    (State.reset.fault = .none ∧
      decode [State.reset.memRead State.reset.pc.toNat, State.reset.memRead (State.reset.pc.toNat + 1)] =
        .error (.unknown 0)) := by decide
theorem witness_AnUnknownWordIsReportedAndPassed :
    State.reset.fault = .none ∧ decodeWord State.reset.fetchWord = none := by decide
theorem witness_EventsOfAStep : ∃ t, (start 0x6A42 id).fault = .none ∧ step (start 0x6A42 id) = .next t :=
  ⟨_, by decide, rfl⟩
theorem witness_AFaultedCoreStandsStill : ({ State.reset with fault := .stackUnderflow }).fault ≠ .none := by decide

/-- A CALL with a full stack, a RET with an empty one, and SKP of key 16. -/
theorem witness_FaultsArePreciseAndOnlyThoseListed :
    (∃ t, step (start 0x2300 fun s => { s with sp := 16 }) = .next t ∧ t.fault ≠ .none) ∧
    (∃ t, step (start 0x00EE id) = .next t ∧ t.fault ≠ .none) ∧
    (∃ t, step (start 0xE49E fun s => s.setV 4 0x10) = .next t ∧ t.fault ≠ .none) :=
  ⟨⟨_, rfl, by decide⟩, ⟨_, rfl, by decide⟩, ⟨_, rfl, by decide⟩⟩
theorem witness_AHaltedCoreStaysHalted :
    (start 0x1200 id).fault = .none ∧ HaltedAt 0x200 (start 0x1200 id) := by
  refine ⟨by decide, by decide, by decide⟩
/-- The first and the last free entry. -/
theorem witness_ACallPushesAndJumps :
    State.reset.sp.val < 16 ∧ ({ State.reset with sp := 15 }).sp.val < 16 := by decide
/-- One entry in use, and all 16. -/
theorem witness_AReturnPopsAndAddsTwo :
    0 < ({ State.reset with sp := 1 }).sp.val ∧ 0 < ({ State.reset with sp := 16 }).sp.val := by decide
theorem witness_StackFaultsChangeOnlyFault :
    ({ State.reset with sp := 16 }).sp.val = 16 ∧ State.reset.sp.val = 0 := by decide
theorem witness_AReturnGoesOnAfterItsCall : ({ State.reset with sp := 15 }).sp.val < 16 ∧
    ∃ t, exec (.call 0x300) { State.reset with sp := 15 } = .next t ∧ t.params = State.reset.params :=
  ⟨by decide, _, rfl, rfl⟩
/-- One entry in use: 0x204 in the one machine, 0x206 in the other. -/
theorem witness_TheTwoReturnSettingsAreObservablyEqual :
    SameButReturnEntries { State.reset with sp := 1, stack := State.reset.stack.set 0 0x204 }
      { State.reset with
        sp := 1, stack := State.reset.stack.set 0 0x206, params := { defaultParams with retAdds2 := false } } ∧
    ∃ t, Sys2Proof.core.run 1 { State.reset with sp := 1, stack := State.reset.stack.set 0 0x204 } = .next t := by
  refine ⟨⟨rfl, rfl, fun k h hk => ?_⟩, _, rfl⟩
  have hk : k < 1 := hk
  obtain rfl : k = 0 := by omega
  rfl
theorem witness_RegisterSkipsFollowTheirConditions :
    (start 0x3510 fun s => s.setV 5 0x10).getV 5 = 0x10 ∧ (start 0x3510 fun s => s.setV 5 0x11).getV 5 ≠ 0x10 := by decide
theorem witness_AdditionWrapsAndFlagsCarry : (1 : Reg) ≠ VF := by decide
theorem witness_SubtractionsWrapAndFlagNotBorrow : (0 : Reg) ≠ VF := by decide
theorem witness_ShiftsMoveVxByOneAndFlagTheLostBit : (14 : Reg) ≠ VF := by decide
/-- A byte the host names, and none named. -/
theorem witness_RandomIsMaskedForEveryByte :
    ({ State.reset with rndIn := [0xB7] }).rndIn = [0xB7] ∧ State.reset.rndIn = [] := by decide
/-- The digits 15 and 16, under both settings. -/
theorem witness_FontAddressIsFiveTimesTheDigit :
    ((start 0xF029 fun s => s.setV 0 15).getV 0).toNat < 16 ∧ ¬((start 0xF029 fun s => s.setV 0 16).getV 0).toNat < 16 ∧
    State.reset.params.fontAddrLowNibble = false ∧
    ({ State.reset with params := { defaultParams with fontAddrLowNibble := true } }).params.fontAddrLowNibble = true := by
  decide
/-- Canonical memory, with I at the last address, so that the stores wrap. -/
theorem witness_BcdStoresTheThreeDigits :
    ({ State.reset with I := 0xFFF }).memOk ∧
    (∀ k, k < 3 → 0x300 % 4096 ≠ ({ State.reset with I := 0xFFF }).effAddr k % 4096) := by decide
theorem witness_BulkStoreWritesTheRegisters :
    ({ State.reset with I := 0xFFF }).memOk ∧ (15 : Reg).toNat ≤ (15 : Reg).toNat ∧
    (∀ k, k ≤ (15 : Reg).toNat → 0x300 % 4096 ≠ ({ State.reset with I := 0xFFF }).effAddr k % 4096) := by decide
/-- The last register loaded and the first one kept. -/
theorem witness_BulkLoadReadsTheRegisters :
    (2 : Reg).toNat ≤ (2 : Reg).toNat ∧ (2 : Reg).toNat < (3 : Reg).toNat := by decide
theorem witness_ABulkLoadGivesBackABulkStore :
    ∃ t, State.reset.memOk ∧ exec (.ldMemVx 2) State.reset = .next t ∧ MemoryKept t { t with I := State.reset.I } :=
  ⟨_, by decide, rfl, fun _ => rfl⟩
/-- A store over the very next word: V0 is its high byte and V1 its low byte (program P5); and a BCD store over it. -/
theorem witness_AStoreIsSeenByTheNextFetch :
    ({ State.reset with I := 0x202 }).memOk ∧
    (∃ t, exec (.ldMemVx 1) { State.reset with I := 0x202 } = .next t ∧ t.fault = .none ∧
      ({ State.reset with I := 0x202 }).effAddr 0 % 4096 = t.pc.toNat ∧
      ({ State.reset with I := 0x202 }).effAddr 1 % 4096 = (t.pc.toNat + 1) % 4096) ∧
    (∃ t, exec (.ldB 1) { State.reset with I := 0x202 } = .next t ∧ t.fault = .none ∧
      ({ State.reset with I := 0x202 }).effAddr 0 % 4096 = t.pc.toNat ∧
      ({ State.reset with I := 0x202 }).effAddr 1 % 4096 = (t.pc.toNat + 1) % 4096) :=
  ⟨by decide, ⟨_, rfl, by decide, by decide, by decide⟩, ⟨_, rfl, by decide, by decide, by decide⟩⟩
theorem witness_HighIndexBitsSelectNoByte :
    (∀ x, Instr.ldVxMem 2 ≠ .addI x) ∧ (0x1300 : Word).toNat % 4096 = ({ State.reset with I := 0x300 }).I.toNat % 4096 ∧
    ∃ t, exec (.ldVxMem 2) { State.reset with I := 0x300 } = .next t :=
  ⟨fun _ h => Instr.noConfusion h, by decide, _, rfl⟩
/-- A pixel the sprite's byte at 0x000 (0xF0) covers, on a screen that is lit there, and one it does not cover. -/
theorem witness_DrawFlipsExactlyTheSpritesPixels :
    (SpriteCovers { State.reset with fb := (fbToggle State.reset.fb 3 0).1 } 0 1 1 3 0 ∧
      ({ State.reset with fb := (fbToggle State.reset.fb 3 0).1 }).pixel 3 0 = true) ∧
    ¬SpriteCovers State.reset 0 1 1 4 0 := by
  refine ⟨⟨⟨0, 3, by decide, by decide, by decide, by decide, by decide⟩, by decide⟩, ?_⟩
  rintro ⟨r, col, hr, hc, hs, hx, -⟩
  have hx : (0 + col) % 64 = 4 % 64 := hx
  have hr : r < 1 := hr
  obtain rfl : r = 0 := by omega
  obtain rfl : col = 4 := by omega
  exact absurd hs (by decide)
/-- Without a lit pixel the statement's other case holds: the screen after reset. -/
theorem witness_draw_without_collision :
    ¬∃ px py, SpriteCovers State.reset 0 1 1 px py ∧ State.reset.pixel px py = true := by
  rintro ⟨px, py, -, h⟩
  have : State.reset.pixel px py = false := fbPixel_blank px py
  rw [this] at h
  cases h
theorem witness_DrawingTwiceErases : (0 : Reg) ≠ VF ∧ (1 : Reg) ≠ VF := by decide
/-- Key 15 and the value 16. -/
theorem witness_KeySkipsFollowTheKey :
    ((start 0xE49E fun s => s.setV 4 15).getV 4).toNat = (15 : Fin 16).val ∧
    15 < ((start 0xE49E fun s => s.setV 4 16).getV 4).toNat := by decide
/-- Key 15 alone; keys 0 and 15, of which 0 is the least; no key. -/
theorem witness_TheKeyWaitTakesTheLeastKeyOrBlocks :
    (({ State.reset with latch := State.reset.latch.set 15 true }).key 15 = true ∧
      ∀ j, j < 15 → ({ State.reset with latch := State.reset.latch.set 15 true }).key j = false) ∧
    (({ State.reset with latch := (State.reset.latch.set 15 true).set 0 true }).key 0 = true ∧
      ∀ j, j < 0 → ({ State.reset with latch := (State.reset.latch.set 15 true).set 0 true }).key j = false) ∧
    ((∀ k, (start 0xF20A id).key k = false) ∧ (start 0xF20A id).fault = .none ∧
      decodeWord (start 0xF20A id).fetchWord = some (.ldVxK 2)) := by decide
theorem witness_TheTickFollowsTheTransfer :
    (∀ w ∈ [0xF307, 0xF315, 0xF318], (start w fun s => { s with tickEn := true }).fault = .none ∧
      (start w fun s => { s with tickEn := true }).tickEn = true) ∧
    decodeWord (start 0xF307 fun s => { s with tickEn := true }).fetchWord = some (.ldVxDt 3) ∧
    decodeWord (start 0xF315 fun s => { s with tickEn := true }).fetchWord = some (.ldDtVx 3) ∧
    decodeWord (start 0xF318 fun s => { s with tickEn := true }).fetchWord = some (.ldStVx 3) := by decide
theorem witness_EveryInstructionWritesOnlyItsParts :
    ∃ t, exec (.addImm 3 1) State.reset = .next t ∧ (2 : Reg) ∉ destinations (.addImm 3 1) ∧
      Part.index ∉ Part.writtenBy (.addImm 3 1) := ⟨_, rfl, by decide, by decide⟩
theorem witness_InputsAreReadOnlyWhereListed :
    ∃ t, exec (.addImm 3 1) State.reset = .next t ∧ readsKeys (.addImm 3 1) = false ∧
      Part.randomInput ∉ Part.writtenBy (.addImm 3 1) := ⟨_, rfl, by decide, by decide⟩
theorem witness_TickEnableTouchesOnlyTheTimers :
    ∃ t, step (start 0xF018 fun s => s.setV 0 1) = .next t := ⟨_, rfl⟩
/-- The last key number and the first refused one. -/
theorem witness_HostFlagCallsTouchOneFlagAtMost : 15 < 16 ∧ 16 ≤ 16 := by decide
/-- The longest image and its last byte, the address below it, and the one above an image a byte shorter. -/
theorem witness_LoadProgramCopiesTheImage :
    State.reset.memOk ∧ State.reset.run ≠ .running ∧ State.reset.loadable = true ∧
    (List.replicate 3584 (0x12 : Byte)).length ≤ 3584 ∧ 3583 < (List.replicate 3584 (0x12 : Byte)).length ∧
    (0x1FF < 4096 ∧ 0x1FF < 0x200) ∧ (0xFFF < 4096 ∧ 0x200 + (List.replicate 3583 (0x12 : Byte)).length ≤ 0xFFF) := by
  rw [List.length_replicate, List.length_replicate]
  decide
/-- A load while Running, one not after a reset, an image one byte too long under each LOAD_OVERSIZE, its last byte that
is copied, and a load that changes nothing. -/
theorem witness_AnOversizeImageWritesNothingBelowTheProgram :
    ({ State.reset with run := .running }).run = .running ∧
    ({ State.reset with loadable := false }).loadable = false ∧
    (State.reset.run ≠ .running ∧ State.reset.loadable = true ∧ 3584 < (List.replicate 3585 (0x12 : Byte)).length) ∧
    (∀ o, ({ State.reset with params := { defaultParams with loadOversize := o } }).params.loadOversize = o ∧
      ({ State.reset with params := { defaultParams with loadOversize := o } }).memOk) ∧
    (3583 < (List.replicate 3585 (0x12 : Byte)).length ∧ 3583 < 3584) ∧
    ∀ t r, hostCall (.loadProgram none) State.reset ≠ .next (t, r) := by
  rw [List.length_replicate]
  exact ⟨by decide, by decide, by decide, fun _ => ⟨rfl, rfl⟩, by decide, fun _ _ h => nomatch h⟩
/-- RUN in each of its states. -/
theorem witness_RunStateGovernsSteps :
    State.reset.run = .stopped ∧ ({ State.reset with run := .paused }).run = .paused ∧
    ({ State.reset with run := .running }).run = .running ∧ State.reset.run ≠ .running := by decide
theorem witness_HostCallsLeaveTheCoreAlone :
    ∃ t, HostCall.markClean ≠ .reset ∧ (∀ b e, HostCall.markClean ≠ .issueStep b e) ∧
      hostCall .markClean State.reset = .next (t, .unit) ∧ ∀ p, HostCall.markClean ≠ .loadProgram p :=
  ⟨_, by decide, fun _ _ h => HostCall.noConfusion h, rfl, fun _ h => HostCall.noConfusion h⟩

end Sys2Proof.Tests
end

section
/-! PROOFS. A word selects at most one row of the opcode map (R85): any two rows of R86 disagree on a bit that both
masks test, so `decodeWord`'s first selected row is the only one. -/

namespace Sys2Proof

/-- Two rows disagree on some bit that both their masks test. -/
abbrev Row.Conflicts (r r' : Row) : Prop := r.pat &&& r'.mask ≠ r'.pat &&& r.mask

theorem Row.selects_eq_true_iff (r : Row) (w : Word) : r.selects w = true ↔ w &&& r.mask = r.pat :=
  beq_iff_eq

/-- The bits that both masks test are the word's own, so they cannot differ between two selected rows. -/
theorem Row.not_conflicts_of_selects {r r' : Row} {w : Word} (h : r.selects w = true) (h' : r'.selects w = true) :
    ¬ r.Conflicts r' := by
  rw [Row.selects_eq_true_iff] at h h'
  rw [not_not]
  calc r.pat &&& r'.mask
      = w &&& r.mask &&& r'.mask := by rw [h]
    _ = w &&& r'.mask &&& r.mask := by ac_rfl
    _ = r'.pat &&& r.mask := by rw [h']

/-- Every two rows of R86 conflict, at whatever places they stand. -/
theorem opcodeTable_pairwise_conflicts : opcodeTable.Pairwise Row.Conflicts := by decide

theorem selected_row_unique {w : Word} {r r' : Row} (hr : r ∈ opcodeTable) (hr' : r' ∈ opcodeTable)
    (h : r.selects w = true) (h' : r'.selects w = true) : r = r' := by
  by_contra hne
  have hsymm : Std.Symm Row.Conflicts := ⟨fun _ _ => Ne.symm⟩
  have hconf : r.Conflicts r' := opcodeTable_pairwise_conflicts.forall hr hr' hne
  exact Row.not_conflicts_of_selects h h' hconf

/-- Whichever row a word selects is the one `decodeWord` finds. -/
theorem decodeWord_of_selects {w : Word} {r : Row} (hr : r ∈ opcodeTable) (h : r.selects w = true) :
    decodeWord w = some (r.make w) := by
  obtain ⟨r₀, hfind⟩ : ∃ r₀, opcodeTable.find? (fun r => r.selects w) = some r₀ :=
    Option.isSome_iff_exists.mp (List.find?_isSome.mpr ⟨r, hr, h⟩)
  have hsel : r₀.selects w = true := List.find?_some (p := fun r : Row => r.selects w) hfind
  have heq : r₀ = r := selected_row_unique (List.mem_of_find?_eq_some hfind) hr hsel h
  rw [decodeWord, hfind, heq, Option.map_some]

/-- UNKNOWN (R90) is the answer exactly for the words that no row selects. -/
theorem decodeWord_eq_none_iff (w : Word) : decodeWord w = none ↔ ∀ r ∈ opcodeTable, ¬ r.selects w = true := by
  rw [decodeWord, Option.map_eq_none_iff, List.find?_eq_none]

/-- Settles O3: two rows conflict on a bit both masks test, so the selected row is unique and `decodeWord` finds it. -/
theorem aWordSelectsAtMostOneRow : Obligations.AWordSelectsAtMostOneRow := by
  unfold Obligations.AWordSelectsAtMostOneRow
  simp only [ne_eq, ← Row.selects_eq_true_iff]
  intro w
  refine ⟨fun r hr h => decodeWord_of_selects hr h, fun r hr r' hr' h h' => ?_, (decodeWord_eq_none_iff w).symm⟩
  obtain rfl := selected_row_unique hr hr' h h'
  exact ⟨rfl, rfl⟩

end Sys2Proof
end

section
/-! PROOFS. Jumps and skips: what completing at a target keeps, and what a skip does for whatever condition it tests. -/

namespace Sys2Proof.Machine

/-! What each of these instructions does, as the operation of Machine/Ops.lean it ends with. -/

theorem exec_jp (nnn : Addr) (s : State) : exec (.jp nnn) s = s.finish nnn := rfl
theorem exec_seImm (x : Reg) (kk : Byte) (s : State) : exec (.seImm x kk) s = s.skipIf (s.getV x == kk) := rfl
theorem exec_sneImm (x : Reg) (kk : Byte) (s : State) : exec (.sneImm x kk) s = s.skipIf (s.getV x != kk) := rfl
theorem exec_seReg (x y : Reg) (s : State) : exec (.seReg x y) s = s.skipIf (s.getV x == s.getV y) := rfl
theorem exec_sneReg (x y : Reg) (s : State) : exec (.sneReg x y) s = s.skipIf (s.getV x != s.getV y) := rfl

/-- Completing at a target touches no byte of memory. -/
theorem memoryKept_finish (s : State) (a : Addr) : MemoryKept s { s with pc := a, outcome := .done } := fun _ => rfl

/-- The one argument for every skip: the test `c` that the model computes decides the condition `P` that the rule names,
and `State.skipIf` picks between pc0 + 4 and pc0 + 2 by it (R25). -/
theorem State.exists_skipIf_skipResult (s : State) {c : Bool} {P : Prop} (h : c = true ↔ P) :
    ∃ t, s.skipIf c = .next t ∧ SkipResult s t P := by
  refine ⟨_, rfl, fun hP => ?_, fun hP => ?_, rfl, memoryKept_finish s _⟩
  · have hc : c = true := h.mpr hP
    simp [hc, BitVec.toNat_add]
  · have hc : c = false := Bool.eq_false_iff.mpr (mt h.mp hP)
    simp [hc, BitVec.toNat_add]

/-- Settles O21: each skip is `State.skipIf` of a Boolean test for its condition. -/
theorem registerSkipsFollowTheirConditions : Obligations.RegisterSkipsFollowTheirConditions := by
  unfold Obligations.RegisterSkipsFollowTheirConditions
  intro s
  simp only [exec_seImm, exec_sneImm, exec_seReg, exec_sneReg]
  exact ⟨fun _ _ => s.exists_skipIf_skipResult beq_iff_eq, fun _ _ => s.exists_skipIf_skipResult bne_iff_ne,
    fun _ _ => s.exists_skipIf_skipResult beq_iff_eq, fun _ _ => s.exists_skipIf_skipResult bne_iff_ne⟩

/-- Settles O22: JP completes at NNN, which moves pc alone. -/
theorem aJumpSetsPcAlone : Obligations.AJumpSetsPcAlone := by
  unfold Obligations.AJumpSetsPcAlone
  intro s nnn
  exact ⟨_, exec_jp nnn s, rfl, memoryKept_finish s nnn⟩

end Sys2Proof.Machine
end

section
/-! PROOFS. Register loads and the immediate add: each is one register write, and what such an instruction changes is
said once, for whatever byte it writes. -/

namespace Sys2Proof.Machine

/-! What each of these instructions does, as the register write of Machine/Ops.lean it consists of. -/

theorem exec_ldImm (x : Reg) (kk : Byte) (s : State) : exec (.ldImm x kk) s = (s.setV x kk).finish (s.pc + 2) := rfl
theorem exec_addImm (x : Reg) (kk : Byte) (s : State) :
    exec (.addImm x kk) s = (s.setV x (addMod (s.getV x) kk)).finish (s.pc + 2) := rfl
theorem exec_ldReg (x y : Reg) (s : State) : exec (.ldReg x y) s = (s.setV x (s.getV y)).finish (s.pc + 2) := rfl

/-- The sum of R142 is reduced modulo 256. -/
@[simp] theorem toNat_addMod (a b : Byte) : (addMod a b).toNat = (a.toNat + b.toNat) % 256 :=
  BitVec.toNat_ofNat (a.toNat + b.toNat) 8

theorem registersKeptBut_setV (s : State) (x : Reg) (b : Byte) : RegistersKeptBut [x] s (s.setV x b) :=
  fun _ hr => State.getV_setV_ne s b (List.ne_of_not_mem_cons hr)

/-- The one argument for every instruction that writes `b` to Vx and completes: Vx holds `b`, VF is a register like any
other (R20), and nothing else changes. -/
theorem State.exists_finish_setV_onlyRegisters (s : State) (x : Reg) (b : Byte) :
    ∃ t, (s.setV x b).finish (s.pc + 2) = .next t ∧ t.getV x = b ∧ OnlyRegisters [x] s t :=
  ⟨_, rfl, State.getV_setV_same s x b, registersKeptBut_setV s x b, rfl, State.memRead_setV s x b⟩

/-- Settles O29: each of the three completes after one write to Vx, and the sum ADD writes is reduced modulo 256. -/
theorem loadsAndImmediateAddWriteOnlyTheirDestination :
    Obligations.LoadsAndImmediateAddWriteOnlyTheirDestination := by
  unfold Obligations.LoadsAndImmediateAddWriteOnlyTheirDestination
  intro s x
  simp only [exec_ldImm, exec_addImm, exec_ldReg]
  refine ⟨fun kk => s.exists_finish_setV_onlyRegisters x kk, fun kk => ?_,
    fun y => s.exists_finish_setV_onlyRegisters x (s.getV y)⟩
  obtain ⟨t, ht, hx, hkept⟩ := s.exists_finish_setV_onlyRegisters x (addMod (s.getV x) kk)
  exact ⟨t, ht, by rw [hx, toNat_addMod], hkept⟩

end Sys2Proof.Machine
end

section
/-! PROOFS. The index register and the memory transfers of R161 and R164 to R166: I + k names a byte of its own for each
k of one instruction, so every byte reads as its last write left it, and I is written last. -/

namespace Sys2Proof.Machine

/-! What each of these instructions does, as the operations of Machine/Ops.lean and Machine/Operands.lean it consists
of. -/

theorem exec_ldI (nnn : Addr) (s : State) : exec (.ldI nnn) s = (s.setI nnn.toNat).finish (s.pc + 2) := rfl
theorem exec_ldB (x : Reg) (s : State) :
    exec (.ldB x) s = (((s.memWrite (s.effAddr 0) (bcdHundreds (s.getV x))).memWrite (s.effAddr 1)
      (bcdTens (s.getV x))).memWrite (s.effAddr 2) (bcdOnes (s.getV x))).finish (s.pc + 2) := rfl
theorem exec_ldMemVx (x : Reg) (s : State) :
    exec (.ldMemVx x) s = ((s.storeRegs (x.toNat + 1)).setI (s.I.toNat + x.toNat + 1)).finish (s.pc + 2) := rfl
theorem exec_ldVxMem (x : Reg) (s : State) :
    exec (.ldVxMem x) s = ((s.loadRegs (x.toNat + 1)).setI (s.I.toNat + x.toNat + 1)).finish (s.pc + 2) := rfl

/-! The index register. -/

theorem IndexWrap.memSize_le_modulus (w : IndexWrap) : memSize ≤ w.modulus := by
  cases w <;> decide

/-- A 12-bit value is below both readings of INDEX_WRAP, so I takes it unreduced. -/
theorem State.toNat_I_setI_addr (s : State) (a : Addr) : (s.setI a.toNat).I.toNat = a.toNat := by
  rw [State.setI_toNat, Nat.mod_eq_of_lt (a.isLt.trans_le (IndexWrap.memSize_le_modulus _))]

/-- Settles O35: NNN has 12 bits, so INDEX_WRAP does not reduce it. -/
theorem loadIndexSetsI : Obligations.LoadIndexSetsI := by
  unfold Obligations.LoadIndexSetsI
  intro s nnn
  exact ⟨_, exec_ldI nnn s, s.toNat_I_setI_addr nnn, rfl, s.memRead_setI nnn.toNat⟩

/-! The operand B (R164). -/

@[simp] theorem toNat_bcdHundreds (v : Byte) : (bcdHundreds v).toNat = v.toNat / 100 :=
  (BitVec.toNat_ofNat _ 8).trans (Nat.mod_eq_of_lt (by omega))
@[simp] theorem toNat_bcdTens (v : Byte) : (bcdTens v).toNat = v.toNat / 10 % 10 :=
  (BitVec.toNat_ofNat _ 8).trans (Nat.mod_eq_of_lt (by omega))
@[simp] theorem toNat_bcdOnes (v : Byte) : (bcdOnes v).toNat = v.toNat % 10 :=
  (BitVec.toNat_ofNat _ 8).trans (Nat.mod_eq_of_lt (by omega))

/-- Addresses I + k with k below 4096 wrap (R51) to different bytes. -/
theorem State.effAddr_mod_eq_iff (s : State) {j k : Nat} (hj : j < 4096) (hk : k < 4096) :
    s.effAddr j % memSize = s.effAddr k % memSize ↔ j = k := by
  simp only [State.effAddr, memSize]
  omega

/-- Everything three writes at I, I + 1, I + 2 do to what MemRead answers. -/
theorem State.memRead_threeWrites {s : State} (h : s.memOk) (b₀ b₁ b₂ : Byte) (c : Nat) :
    (((s.memWrite (s.effAddr 0) b₀).memWrite (s.effAddr 1) b₁).memWrite (s.effAddr 2) b₂).memRead c =
      if c % memSize = s.effAddr 2 % memSize then b₂
      else if c % memSize = s.effAddr 1 % memSize then b₁
      else if c % memSize = s.effAddr 0 % memSize then b₀
      else s.memRead c := by
  have h₁ := State.memOk_memWrite h (s.effAddr 0) b₀
  have h₂ := State.memOk_memWrite h₁ (s.effAddr 1) b₁
  rw [State.memRead_memWrite h₂, State.memRead_memWrite h₁, State.memRead_memWrite h]

/-- Settles O38: the three addresses differ modulo 4096, so no digit is written over by a later one. -/
theorem bcdStoresTheThreeDigits : Obligations.BcdStoresTheThreeDigits := by
  unfold Obligations.BcdStoresTheThreeDigits
  intro s x h
  have hread := State.memRead_threeWrites h (bcdHundreds (s.getV x)) (bcdTens (s.getV x)) (bcdOnes (s.getV x))
  refine ⟨_, exec_ldB x s, ?_, ?_, ?_, fun a ha => ?_, rfl⟩
  · exact (congrArg BitVec.toNat (hread (s.effAddr 0))).trans (by simp [State.effAddr_mod_eq_iff])
  · exact (congrArg BitVec.toNat (hread (s.effAddr 1))).trans (by simp [State.effAddr_mod_eq_iff])
  · exact (congrArg BitVec.toNat (hread (s.effAddr 2))).trans (by simp)
  · exact (hread a).trans (by rw [if_neg (ha 2 (by decide)), if_neg (ha 1 (by decide)), if_neg (ha 0 (by decide))])

/-! Bulk transfers (R165, R166): neither loop touches INDEX_WRAP, so I moves by the modulus it had. -/

@[simp] theorem State.storeRegs_params (s : State) (n : Nat) : (s.storeRegs n).params = s.params := by
  rw [State.storeRegs_eq]
@[simp] theorem State.loadRegs_params (s : State) (n : Nat) : (s.loadRegs n).params = s.params := by
  rw [State.loadRegs_eq]

/-- A bulk load touches no byte of memory. -/
theorem State.memRead_loadRegs (s : State) (n a : Nat) : (s.loadRegs n).memRead a = s.memRead a := by
  rw [State.loadRegs_eq]
  rfl

/-- Settles O39: `State.memRead_storeRegs` for the X + 1 registers, and the store changes nothing but memory. -/
theorem bulkStoreWritesTheRegisters : Obligations.BulkStoreWritesTheRegisters := by
  unfold Obligations.BulkStoreWritesTheRegisters
  intro s x h
  have hn : x.toNat + 1 ≤ 16 := x.isLt
  refine ⟨_, exec_ldMemVx x s, fun r hr => ?_, fun a ha => ?_, ?_, ?_⟩
  · have hstored := (State.memRead_storeRegs h hn (s.effAddr r.toNat)).1 r.toNat (Nat.lt_succ_of_le hr) rfl
    rwa [BitVec.ofNat_toNat, BitVec.setWidth_eq] at hstored
  · exact (State.memRead_storeRegs h hn a).2 fun k hk => ha k (Nat.le_of_lt_succ hk)
  · exact (State.setI_toNat _ _).trans (by rw [State.storeRegs_params])
  · rw [State.storeRegs_eq]
    rfl

/-- Settles O40: `State.getV_loadRegs` for the X + 1 registers, and the load changes nothing but registers. -/
theorem bulkLoadReadsTheRegisters : Obligations.BulkLoadReadsTheRegisters := by
  unfold Obligations.BulkLoadReadsTheRegisters
  intro s x
  have hn : x.toNat + 1 ≤ 16 := x.isLt
  refine ⟨_, exec_ldVxMem x s, fun r hr => ?_, fun r hr => ?_, ?_, ?_, s.memRead_loadRegs (x.toNat + 1)⟩
  · exact (s.getV_loadRegs hn r).trans (if_pos (Nat.lt_succ_of_le hr))
  · exact (s.getV_loadRegs hn r).trans (if_neg (Nat.not_lt.mpr hr))
  · exact (State.setI_toNat _ _).trans (by rw [State.loadRegs_params])
  · rw [State.loadRegs_eq]
    rfl

end Sys2Proof.Machine
end

section
/-! PROOFS. The sprite draw of R182: a pixel can only go from set to clear where the sprite covers it, and every covered
pixel flips, so the collision the loops find is exactly a pixel going from set to clear (R184). -/

namespace Sys2Proof.Machine

/-! The flag byte (R12). -/

theorem flagByte_eq_one_iff (f : Bool) : flagByte f = 1 ↔ f = true := by
  cases f <;> decide

theorem flagByte_eq_one_or_eq_zero (f : Bool) : flagByte f = 1 ∨ flagByte f = 0 := by
  cases f <;> decide

/-! The draw. -/

/-- The framebuffer and the collision that DRW's loops answer (R182). -/
def State.drawSprite (s : State) (x y : Reg) (n : Nibble) : Framebuffer × Bool :=
  drawRows (s.getV x).toNat (s.getV y).toNat (s.spriteRows n.toNat) (s.fb, false)

/-- What DRW leaves in the framebuffer and in VF. -/
theorem exists_exec_drw (x y : Reg) (n : Nibble) (s : State) :
    ∃ t, exec (.drw x y n) s = .next t ∧ t.fb = (s.drawSprite x y n).1 ∧
      t.getV VF = flagByte (s.drawSprite x y n).2 :=
  ⟨_, rfl, rfl, State.getV_setFlag_vf _ _⟩

@[simp] theorem State.length_spriteRows (s : State) (n : Nat) : (s.spriteRows n).length = n := by
  simp [State.spriteRows]

/-- A sprite has at most 15 rows, so none of them wraps onto another. -/
theorem State.length_spriteRows_le (s : State) (n : Nibble) : (s.spriteRows n.toNat).length ≤ 32 := by
  rw [State.length_spriteRows]
  omega

/-- A draw clears a lit pixel exactly if the sprite covers it. -/
theorem drawRows_clears_iff (vx y : Nat) {rows : List Byte} (hl : rows.length ≤ 32) (acc : Framebuffer × Bool)
    {px py : Nat} (hlit : fbPixel acc.1 px py = true) :
    fbPixel (drawRows vx y rows acc).1 px py = false ↔ RowsCover rows vx y px py := by
  obtain ⟨hflip, hkeep⟩ := drawRows_pixel vx y rows hl acc px py
  by_cases hcov : RowsCover rows vx y px py
  · simp [hflip hcov, hlit, hcov]
  · simp [hkeep hcov, hlit, hcov]

/-- R184 for the sprite loops: a draw that starts without a collision ends with one exactly if it clears a lit pixel. -/
theorem drawRows_hit_iff_clears (vx y : Nat) {rows : List Byte} (hl : rows.length ≤ 32) (fb : Framebuffer) :
    (drawRows vx y rows (fb, false)).2 = true ↔
      ∃ px py, fbPixel fb px py = true ∧ fbPixel (drawRows vx y rows (fb, false)).1 px py = false := by
  have hhit : (drawRows vx y rows (fb, false)).2 = true ↔
      ∃ px py, RowsCover rows vx y px py ∧ fbPixel fb px py = true :=
    (drawRows_hit vx y rows hl (fb, false)).trans (or_iff_right Bool.false_ne_true)
  rw [hhit]
  refine exists₂_congr fun px py => and_comm.trans (and_congr_right fun hlit => ?_)
  exact (drawRows_clears_iff vx y hl (fb, false) hlit).symm

/-- Settles O46: VF is the flag byte of the loops' collision, which is a lit pixel cleared. -/
theorem collisionMeansAPixelWentFromSetToClear : Obligations.CollisionMeansAPixelWentFromSetToClear := by
  unfold Obligations.CollisionMeansAPixelWentFromSetToClear
  intro s x y n
  obtain ⟨t, ht, hfb, hvf⟩ := exists_exec_drw x y n s
  refine ⟨t, ht, ?_, ?_⟩
  · rw [hvf, flagByte_eq_one_iff]
    simp only [State.pixel, hfb]
    exact drawRows_hit_iff_clears _ _ (s.length_spriteRows_le n) s.fb
  · rw [hvf]
    exact flagByte_eq_one_or_eq_zero _

end Sys2Proof.Machine
end

section
/-! PROOFS. The timers of R240 and R241: what one tick does, and how n ticks of ST add up to at most one beep. -/

namespace Sys2Proof.Machine

/-- Both timers count by this one rule: decrement while above 0, which no wrap of the byte disturbs. -/
theorem toNat_decrementAboveZero (b : Byte) : (if b.toNat > 0 then b - 1 else b).toNat = b.toNat - 1 := by
  split
  · next h => exact BitVec.toNat_sub_of_le (BitVec.le_def.mpr h)
  · next h => omega

@[simp] theorem State.toNat_dt_timerTick (s : State) : s.timerTick.dt.toNat = s.dt.toNat - 1 := by
  rw [State.timerTick_eq]
  exact toNat_decrementAboveZero s.dt

@[simp] theorem State.toNat_st_timerTick (s : State) : s.timerTick.st.toNat = s.st.toNat - 1 := by
  rw [State.timerTick_eq]
  exact toNat_decrementAboveZero s.st

theorem State.events_timerTick (s : State) :
    s.timerTick.events = s.events ++ (if s.st.toNat = 1 then [.beep] else []) := by
  have hone : s.st = 1 ↔ s.st.toNat = 1 := BitVec.toNat_inj.symm
  rw [State.timerTick_eq]
  simp only [hone]
  split
  · rfl
  · exact (List.append_nil s.events).symm

/-- Settles O16: `State.timerTick_eq` says which fields a tick writes, and the lemmas above say what they then hold. -/
theorem aTickCountsBothTimersDown : Obligations.ATickCountsBothTimersDown := by
  unfold Obligations.ATickCountsBothTimersDown
  intro s
  refine ⟨s.toNat_dt_timerTick, s.toNat_st_timerTick, s.events_timerTick, ?_⟩
  rw [State.timerTick_eq]

/-! Counting down (R241). -/

theorem State.toNat_st_iterate_timerTick (s : State) (n : Nat) :
    (State.timerTick^[n] s).st.toNat = s.st.toNat - n := by
  induction n with
  | zero => rfl
  | succ n ih => rw [Function.iterate_succ_apply', State.toNat_st_timerTick, ih, Nat.sub_sub]

/-- The tick after n ticks beeps exactly when ST was n + 1 at the start, so the beep comes once and never again. -/
theorem State.events_iterate_timerTick (s : State) (n : Nat) :
    (State.timerTick^[n] s).events =
      s.events ++ (if 0 < s.st.toNat ∧ s.st.toNat ≤ n then [.beep] else []) := by
  induction n with
  | zero =>
    have hnone : ¬(0 < s.st.toNat ∧ s.st.toNat ≤ 0) := by omega
    rw [if_neg hnone, List.append_nil, Function.iterate_zero_apply]
  | succ n ih =>
    rw [Function.iterate_succ_apply', State.events_timerTick, State.toNat_st_iterate_timerTick, ih,
      List.append_assoc]
    congr 1
    by_cases hnow : s.st.toNat = n + 1
    · simp [hnow]
    · have hquiet : s.st.toNat - n ≠ 1 := by omega
      have hsame : s.st.toNat ≤ n ↔ s.st.toNat ≤ n + 1 := by omega
      simp only [if_neg hquiet, List.append_nil, hsame]

/-- Settles O17: by induction on the ticks, ST falls by one at each, and the beep falls on the one that takes it to 0. -/
theorem theSoundTimerBeepsOnceOnItsLastTick : Obligations.TheSoundTimerBeepsOnceOnItsLastTick := by
  unfold Obligations.TheSoundTimerBeepsOnceOnItsLastTick
  intro s n
  exact ⟨s.toNat_st_iterate_timerTick n, s.events_iterate_timerTick n⟩

end Sys2Proof.Machine
end

section
/-! PROOFS. The round trip of decoding and encoding (R80, R85, R86, R88): a row selects exactly the words that its own
instruction encodes to. Both directions of the round trip rest on that, and so does the list of UNKNOWN words (R90). -/

namespace Sys2Proof

/-! The fields of a word in each format of R88, and each format made again of a word's own fields. -/

@[simp] theorem fieldOP_formXY (op x y n : BitVec 4) : fieldOP (formXY op x y n) = op := (fields_formXY op x y n).1
@[simp] theorem fieldX_formXY (op x y n : BitVec 4) : fieldX (formXY op x y n) = x := (fields_formXY op x y n).2.1
@[simp] theorem fieldY_formXY (op x y n : BitVec 4) : fieldY (formXY op x y n) = y := (fields_formXY op x y n).2.2.1
@[simp] theorem fieldN_formXY (op x y n : BitVec 4) : fieldN (formXY op x y n) = n := (fields_formXY op x y n).2.2.2
@[simp] theorem fieldOP_formA (op : BitVec 4) (nnn : Addr) : fieldOP (formA op nnn) = op := by
  rw [formA_eq, fieldOP_formXY]
@[simp] theorem fieldOP_formXK (op : BitVec 4) (x : Reg) (kk : Byte) : fieldOP (formXK op x kk) = op := by
  rw [formXK_eq, fieldOP_formXY]
@[simp] theorem fieldX_formXK (op : BitVec 4) (x : Reg) (kk : Byte) : fieldX (formXK op x kk) = x := by
  rw [formXK_eq, fieldX_formXY]

/-- Formats XK and XS lay out the same fields (R88). -/
theorem formXS_eq_formXK (op : BitVec 4) (x : Reg) (sub : Byte) : formXS op x sub = formXK op x sub := rfl

theorem formXK_fields (w : Word) : formXK (fieldOP w) (fieldX w) (fieldNN w) = w := by
  rw [fieldNN_eq]
  exact (word_eq w).symm

theorem formA_fields (w : Word) : formA (fieldOP w) (fieldNNN w) = w := by
  rw [fieldNNN_eq]
  exact formXK_fields w

/-! A mask of R86 tests whole fields: the word it leaves, as a word of the format. -/

theorem and_fifteen (a : BitVec 4) : a &&& 15#4 = a := BitVec.and_allOnes

theorem and_F000 (w : Word) : w &&& 0xF000 = formXY (fieldOP w) 0 0 0 := by
  rw [word_eq w, show (0xF000 : Word) = formXY 15 0 0 0 from rfl, and_formXY]
  simp [and_fifteen]

theorem and_F00F (w : Word) : w &&& 0xF00F = formXY (fieldOP w) 0 0 (fieldN w) := by
  rw [word_eq w, show (0xF00F : Word) = formXY 15 0 0 15 from rfl, and_formXY]
  simp [and_fifteen]

theorem and_F0FF (w : Word) : w &&& 0xF0FF = formXK (fieldOP w) 0 (fieldNN w) := by
  rw [fieldNN_eq, word_eq w, show (0xF0FF : Word) = formXY 15 0 15 15 from rfl, and_formXY]
  simp [and_fifteen]
  rfl

/-! So a mask finds its match exactly in the words that hold the match's fields, and these are the words of the format,
whatever the operands are. -/

theorem and_F000_iff {w : Word} {op : BitVec 4} : w &&& 0xF000 = formXY op 0 0 0 ↔ fieldOP w = op := by
  rw [and_F000, formXY_inj]
  simp

theorem and_F00F_iff {w : Word} {op n : BitVec 4} :
    w &&& 0xF00F = formXY op 0 0 n ↔ fieldOP w = op ∧ fieldN w = n := by
  rw [and_F00F, formXY_inj]
  simp

theorem and_F0FF_iff {w : Word} {op : BitVec 4} {sub : Byte} :
    w &&& 0xF0FF = formXK op 0 sub ↔ fieldOP w = op ∧ fieldNN w = sub := by
  rw [and_F0FF]
  refine ⟨fun h => ⟨?_, ?_⟩, fun ⟨hop, hnn⟩ => by rw [hop, hnn]⟩
  · simpa using congrArg fieldOP h
  · simpa [fieldNN_formXK] using congrArg fieldNN h

theorem formA_eq_iff (op : BitVec 4) {w : Word} : w &&& 0xF000 = formXY op 0 0 0 ↔ formA op (fieldNNN w) = w := by
  rw [and_F000_iff]
  exact ⟨fun h => h ▸ formA_fields w, fun h => h ▸ fieldOP_formA op _⟩

theorem formXK_eq_iff (op : BitVec 4) {w : Word} :
    w &&& 0xF000 = formXY op 0 0 0 ↔ formXK op (fieldX w) (fieldNN w) = w := by
  rw [and_F000_iff]
  exact ⟨fun h => h ▸ formXK_fields w, fun h => h ▸ fieldOP_formXK op _ _⟩

theorem formXYN_eq_iff (op : BitVec 4) {w : Word} :
    w &&& 0xF000 = formXY op 0 0 0 ↔ formXY op (fieldX w) (fieldY w) (fieldN w) = w := by
  rw [and_F000_iff]
  exact ⟨fun h => h ▸ (word_eq w).symm, fun h => h ▸ fieldOP_formXY op _ _ _⟩

theorem formXY_eq_iff (op n : BitVec 4) {w : Word} :
    w &&& 0xF00F = formXY op 0 0 n ↔ formXY op (fieldX w) (fieldY w) n = w := by
  rw [and_F00F_iff]
  refine ⟨fun ⟨hop, hn⟩ => hop ▸ hn ▸ (word_eq w).symm, fun h => ⟨?_, ?_⟩⟩
  · exact h ▸ fieldOP_formXY op _ _ n
  · exact h ▸ fieldN_formXY op _ _ n

theorem formXS_eq_iff (op : BitVec 4) (sub : Byte) {w : Word} :
    w &&& 0xF0FF = formXK op 0 sub ↔ formXS op (fieldX w) sub = w := by
  rw [and_F0FF_iff, formXS_eq_formXK]
  refine ⟨fun ⟨hop, hnn⟩ => hop ▸ hnn ▸ formXK_fields w, fun h => ⟨?_, ?_⟩⟩
  · exact h ▸ fieldOP_formXK op _ sub
  · exact h ▸ fieldNN_formXK op _ sub

theorem and_FFFF_eq_iff {w pat : Word} : w &&& 0xFFFF = pat ↔ pat = w := by
  rw [show w &&& 0xFFFF = w from BitVec.and_allOnes, eq_comm]

/-- R85 and R88 agree: a row selects a word exactly when the instruction it makes of the word encodes to that word. -/
theorem selects_iff_encode_make (w : Word) :
    ∀ r ∈ opcodeTable, r.selects w = true ↔ encode (r.make w) = w := by
  simp only [opcodeTable, List.forall_mem_append, Row.selects_eq_true_iff, rows0to7, rows8, rows9toE, rowsF,
    List.forall_mem_cons]
  refine ⟨⟨⟨?_, ?_⟩, ?_⟩, ?_⟩
  · exact ⟨and_FFFF_eq_iff, and_FFFF_eq_iff, formA_eq_iff 1, formA_eq_iff 2, formXK_eq_iff 3, formXK_eq_iff 4,
      formXY_eq_iff 5 0, formXK_eq_iff 6, formXK_eq_iff 7, List.forall_mem_nil _⟩
  · exact ⟨formXY_eq_iff 8 0, formXY_eq_iff 8 1, formXY_eq_iff 8 2, formXY_eq_iff 8 3, formXY_eq_iff 8 4,
      formXY_eq_iff 8 5, formXY_eq_iff 8 6, formXY_eq_iff 8 7, formXY_eq_iff 8 14, List.forall_mem_nil _⟩
  · exact ⟨formXY_eq_iff 9 0, formA_eq_iff 10, formA_eq_iff 11, formXK_eq_iff 12, formXYN_eq_iff 13,
      formXS_eq_iff 14 0x9E, formXS_eq_iff 14 0xA1, List.forall_mem_nil _⟩
  · exact ⟨formXS_eq_iff 15 0x07, formXS_eq_iff 15 0x0A, formXS_eq_iff 15 0x15, formXS_eq_iff 15 0x18,
      formXS_eq_iff 15 0x1E, formXS_eq_iff 15 0x29, formXS_eq_iff 15 0x33, formXS_eq_iff 15 0x55,
      formXS_eq_iff 15 0x65, List.forall_mem_nil _⟩

/-- The rows stand in the order of the instructions, and an instruction's row reads its operands back from its word. -/
theorem exists_row_make_encode (i : Instr) :
    ∃ r, opcodeTable[i.ctorIdx]? = some r ∧ r.make (encode i) = i := by
  cases i with
  | cls | ret => exact ⟨_, rfl, rfl⟩
  | jp nnn | call nnn | ldI nnn | jpV0 nnn => exact ⟨_, rfl, by simp only [encode, fieldNNN_formA]⟩
  | seImm x kk | sneImm x kk | ldImm x kk | addImm x kk | rnd x kk =>
    exact ⟨_, rfl, by simp only [encode, fieldX_formXK, fieldNN_formXK]⟩
  | seReg x y | ldReg x y | orReg x y | andReg x y | xorReg x y | addReg x y | subReg x y | shr x y | subnReg x y
  | shl x y | sneReg x y => exact ⟨_, rfl, by simp only [encode, fieldX_formXY, fieldY_formXY]⟩
  | drw x y n => exact ⟨_, rfl, by simp only [encode, fieldX_formXY, fieldY_formXY, fieldN_formXY]⟩
  | skp x | sknp x | ldVxDt x | ldVxK x | ldDtVx x | ldStVx x | addI x | ldF x | ldB x | ldMemVx x | ldVxMem x =>
    exact ⟨_, rfl, by simp only [encode, formXS_eq_formXK, fieldX_formXK]⟩

@[simp] theorem decodeWord_encode (i : Instr) : decodeWord (encode i) = some i := by
  obtain ⟨r, hr, hmake⟩ := exists_row_make_encode i
  have hmem : r ∈ opcodeTable := List.mem_of_getElem? hr
  have hsel : r.selects (encode i) = true := (selects_iff_encode_make _ r hmem).mpr (by rw [hmake])
  rw [decodeWord_of_selects hmem hsel, hmake]

theorem encode_of_decodeWord {w : Word} {i : Instr} (h : decodeWord w = some i) : encode i = w := by
  obtain ⟨r, hfind, rfl⟩ := Option.map_eq_some_iff.mp h
  have hsel : r.selects w = true := List.find?_some (p := fun r : Row => r.selects w) hfind
  exact (selects_iff_encode_make w r (List.mem_of_find?_eq_some hfind)).mp hsel

/-! The two bytes of a word (R80). -/

theorem bytesOfWord_append (hi lo : Byte) : bytesOfWord (hi ++ lo) = [hi, lo] := by
  simp only [bytesOfWord, List.cons.injEq, and_true]
  constructor <;> apply BitVec.eq_of_toNat_eq <;>
    simp only [BitVec.extractLsb'_toNat, toNat_append_add, Nat.shiftRight_eq_div_pow] <;> omega

theorem append_bytesOfWord (w : Word) : w.extractLsb' 8 8 ++ w.extractLsb' 0 8 = w := by
  apply BitVec.eq_of_toNat_eq
  simp only [BitVec.extractLsb'_toNat, toNat_append_add, Nat.shiftRight_eq_div_pow]
  omega

/-- Decoding consumes one word, whatever follows it (R92). -/
theorem decode_of_decodeWord {hi lo : Byte} {i : Instr} (rest : List Byte) (h : decodeWord (hi ++ lo) = some i) :
    decode (hi :: lo :: rest) = .ok (i, rest) := by
  simp only [decode, h]

/-- Bytes decode only if there are two of them, and their word decodes. -/
theorem decode_ok {bytes rest : List Byte} {i : Instr} (h : decode bytes = .ok (i, rest)) :
    ∃ hi lo, bytes = hi :: lo :: rest ∧ decodeWord (hi ++ lo) = some i := by
  match bytes with
  | [] | [_] => cases h
  | hi :: lo :: tail =>
    cases hword : decodeWord (hi ++ lo) with
    | none => simp [decode, hword] at h
    | some j =>
      obtain ⟨rfl, rfl⟩ : j = i ∧ tail = rest := by simpa [decode, hword] using h
      exact ⟨hi, lo, rfl, hword⟩

/-- Settles O1: the word of an instruction selects the instruction's own row, which reads every operand back. -/
theorem decodingAnEncodedInstructionGivesItBack : Obligations.DecodingAnEncodedInstructionGivesItBack := by
  unfold Obligations.DecodingAnEncodedInstructionGivesItBack
  intro i rest _
  exact decode_of_decodeWord rest (by rw [append_bytesOfWord, decodeWord_encode])

/-- Settles O2: a row that selects a word makes an instruction whose encoding is that word. -/
theorem bytesThatDecodeAreTheEncoding : Obligations.BytesThatDecodeAreTheEncoding := by
  unfold Obligations.BytesThatDecodeAreTheEncoding
  intro bytes rest i h
  obtain ⟨hi, lo, rfl, hword⟩ := decode_ok h
  rw [encodeBytes, encode_of_decodeWord hword, bytesOfWord_append]
  rfl

/-- Settles O5: each word is the encoding of its instruction, or selects no row. -/
theorem sampleWordsDecode : Obligations.SampleWordsDecode := by
  unfold Obligations.SampleWordsDecode
  decide

/-! The UNKNOWN words (R90): no mask of R86 finds its match, said by fields. -/

theorem and_F000_eq_iff {w pat : Word} (h : pat &&& 0xF000 = pat) :
    w &&& 0xF000 = pat ↔ fieldOP w = pat.extractLsb' 12 4 := by
  rw [← h, and_F000 pat, and_F000_iff, ← and_F000 pat, h]
  rfl

theorem and_F00F_eq_iff {w pat : Word} (h : pat &&& 0xF00F = pat) :
    w &&& 0xF00F = pat ↔ fieldOP w = pat.extractLsb' 12 4 ∧ fieldN w = pat.extractLsb' 0 4 := by
  rw [← h, and_F00F pat, and_F00F_iff, ← and_F00F pat, h]
  rfl

theorem and_F0FF_eq_iff {w pat : Word} (h : pat &&& 0xF0FF = pat) :
    w &&& 0xF0FF = pat ↔ fieldOP w = pat.extractLsb' 12 4 ∧ fieldNN w = pat.extractLsb' 0 8 := by
  rw [← h, and_F0FF pat, and_F0FF_iff, ← and_F0FF pat, h]
  rfl

/-- The N of family 8 that R90 lists are those that no row of R86 has. -/
theorem unlisted_aluNibble_iff (n : BitVec 4) : n ∈ [0x8#4, 0x9#4, 0xA#4, 0xB#4, 0xC#4, 0xD#4, 0xF#4] ↔
    n ∉ [0x0#4, 0x1#4, 0x2#4, 0x3#4, 0x4#4, 0x5#4, 0x6#4, 0x7#4, 0xE#4] := by
  revert n
  decide

/-- The OP field names one of sixteen families. -/
theorem nibble_cases (a : BitVec 4) : a ∈ [0x0#4, 0x1#4, 0x2#4, 0x3#4, 0x4#4, 0x5#4, 0x6#4, 0x7#4, 0x8#4, 0x9#4,
    0xA#4, 0xB#4, 0xC#4, 0xD#4, 0xE#4, 0xF#4] := by
  revert a
  decide

/-- Settles O4: family by family, the words that no row of the family selects are the listed ones. -/
theorem unknownWordsAreThoseListed : Obligations.UnknownWordsAreThoseListed := by
  unfold Obligations.UnknownWordsAreThoseListed
  intro w
  have hfamily0 : w = 0x00E0 ∨ w = 0x00EE → fieldOP w = 0 := by
    rintro (rfl | rfl) <;> rfl
  rw [decodeWord_eq_none_iff, unlisted_aluNibble_iff]
  simp (disch := decide) only [opcodeTable, rows0to7, rows8, rows9toE, rowsF, List.forall_mem_append,
    List.forall_mem_cons, Row.selects_eq_true_iff, and_F000_eq_iff, and_F00F_eq_iff, and_F0FF_eq_iff,
    and_FFFF_eq_iff, BitVec.reduceExtractLsb', eq_comm (b := w)]
  have hop := nibble_cases (fieldOP w)
  simp only [List.mem_cons, List.not_mem_nil, or_false] at hop ⊢
  rcases hop with h | h | h | h | h | h | h | h | h | h | h | h | h | h | h | h <;> simp_all

end Sys2Proof
end

section
/-! PROOFS. What an instruction can do, said once for all of them: it always gives a next state, it ends in one of the
three ways of R84, and it writes only its own parts of the state (R30). Later proofs use these facts and do not split on
the instruction again. -/

namespace Sys2Proof.Machine

/-! The instructions that can end in more than one way, an equation a case. -/

theorem exec_ret_of_pos {s : State} (h : 0 < s.sp.val) :
    exec .ret s = ({ s with sp := ⟨s.sp.val - 1, by omega⟩ }).finish
      (s.returnTarget (s.stack[s.sp.val - 1]'(by omega))) := by
  simp only [exec, execRet, State.pop_of_pos h]

theorem exec_ret_empty {s : State} (h : s.sp.val = 0) : exec .ret s = s.raise .stackUnderflow := by
  simp only [exec, execRet, State.pop_empty h]

theorem exec_call_of_lt {s : State} (nnn : Addr) (h : s.sp.val < 16) :
    exec (.call nnn) s =
      ({ s with stack := s.stack.set s.sp.val s.callEntry h, sp := ⟨s.sp.val + 1, by omega⟩ }).finish nnn := by
  simp only [exec, execCall, State.push_of_lt _ h]

theorem exec_call_full {s : State} (nnn : Addr) (h : s.sp.val = 16) :
    exec (.call nnn) s = s.raise .stackOverflow := by
  simp only [exec, execCall, State.push_full _ h]

theorem exec_skp_of_lt {s : State} {x : Reg} (h : (s.getV x).toNat < 16) :
    exec (.skp x) s = s.skipIf (s.key ⟨(s.getV x).toNat, h⟩) := by
  simp only [exec, execSkp, State.keyOperand_of_lt h]

theorem exec_sknp_of_lt {s : State} {x : Reg} (h : (s.getV x).toNat < 16) :
    exec (.sknp x) s = s.skipIf (!s.key ⟨(s.getV x).toNat, h⟩) := by
  simp only [exec, execSknp, State.keyOperand_of_lt h]

theorem exec_skp_of_ge {s : State} {x : Reg} (h : 16 ≤ (s.getV x).toNat) : exec (.skp x) s = s.raise .keyRange := by
  simp only [exec, execSkp, State.keyOperand_of_ge h]

theorem exec_sknp_of_ge {s : State} {x : Reg} (h : 16 ≤ (s.getV x).toNat) : exec (.sknp x) s = s.raise .keyRange := by
  simp only [exec, execSknp, State.keyOperand_of_ge h]

theorem exec_ldVxK_of_some {s : State} {k : Fin 16} (x : Reg) (h : s.leastKey = some k) :
    exec (.ldVxK x) s = (s.setV x (BitVec.ofNat 8 k.val)).finish (s.pc + 2) := by
  simp only [exec, execLdVxK, h]

theorem exec_ldVxK_of_none {s : State} (x : Reg) (h : s.leastKey = none) : exec (.ldVxK x) s = s.block := by
  simp only [exec, execLdVxK, h]

theorem State.sp_lt_or_full (s : State) : s.sp.val < 16 ∨ s.sp.val = 16 := by omega

/-- No instruction of the model stops with a fault or a refusal of the Host's. -/
theorem exists_exec_next (i : Instr) (s : State) : ∃ t, exec i s = .next t := by
  cases i with
  | ret =>
    rcases Nat.eq_zero_or_pos s.sp.val with h | h
    · exact ⟨_, exec_ret_empty h⟩
    · exact ⟨_, exec_ret_of_pos h⟩
  | call nnn =>
    rcases s.sp_lt_or_full with h | h
    · exact ⟨_, exec_call_of_lt nnn h⟩
    · exact ⟨_, exec_call_full nnn h⟩
  | skp x =>
    rcases Nat.lt_or_ge (s.getV x).toNat 16 with h | h
    · exact ⟨_, exec_skp_of_lt h⟩
    · exact ⟨_, exec_skp_of_ge h⟩
  | sknp x =>
    rcases Nat.lt_or_ge (s.getV x).toNat 16 with h | h
    · exact ⟨_, exec_sknp_of_lt h⟩
    · exact ⟨_, exec_sknp_of_ge h⟩
  | ldVxK x =>
    cases h : s.leastKey with
    | some k => exact ⟨_, exec_ldVxK_of_some x h⟩
    | none => exact ⟨_, exec_ldVxK_of_none x h⟩
  | _ => exact ⟨_, rfl⟩

/-! The three ends of an instruction. -/

/-- `t` is `s` but for the parts `ps`, pc and OUTCOME. The parts are those of the write column of R30. -/
def WritesOnly (ps : List Part) (s t : State) : Prop :=
  t = { s with
    v := if .registers ∈ ps then t.v else s.v
    I := if .index ∈ ps then t.I else s.I
    sp := if .stack ∈ ps then t.sp else s.sp
    stack := if .stack ∈ ps then t.stack else s.stack
    dt := if .delay ∈ ps then t.dt else s.dt
    st := if .sound ∈ ps then t.st else s.st
    mem := if .memory ∈ ps then t.mem else s.mem
    fb := if .screen ∈ ps then t.fb else s.fb
    dirty := if .screen ∈ ps then t.dirty else s.dirty
    rndIn := if .randomInput ∈ ps then t.rndIn else s.rndIn
    draws := if .randomInput ∈ ps then t.draws else s.draws
    fault := if .fault ∈ ps then t.fault else s.fault
    pc := t.pc
    outcome := t.outcome }

/-- The cases in which the manual raises fault `f` (R222, R224, R225). -/
def FaultCase (i : Instr) (s : State) (f : FaultCode) : Prop :=
  (∃ nnn, i = .call nnn ∧ s.sp.val = 16 ∧ f = .stackOverflow) ∨
  (i = .ret ∧ s.sp.val = 0 ∧ f = .stackUnderflow) ∨
  (∃ x, (i = .skp x ∨ i = .sknp x) ∧ 15 < (s.getV x).toNat ∧ f = .keyRange)

/-- The three ways `i` can take `s` to `t` (R84): Done, with only its own parts written; Blocked, at a key wait with no
key pressed; Faulted, in a listed case and with FAULT set alone. -/
inductive ExecEnd (i : Instr) (s t : State) : Prop where
  | done (houtcome : t.outcome = .done) (hfault : t.fault = s.fault) (hwrites : WritesOnly (Part.writtenBy i) s t)
  | blocked (x : Reg) (hi : i = .ldVxK x) (hkey : s.leastKey = none) (ht : t = { s with outcome := .blocked })
  | faulted (f : FaultCode) (hcase : FaultCase i s f) (ht : t = { s with fault := f, outcome := .faulted })

/-- An instruction that completes from the state `u` is Done, if `u` is `s` with its own parts written. -/
theorem ExecEnd.of_finish {i : Instr} {s u t : State} {a : Addr} (h : u.finish a = .next t) (hfault : u.fault = s.fault)
    (hwrites : WritesOnly (Part.writtenBy i) s { u with pc := a, outcome := .done }) : ExecEnd i s t := by
  obtain rfl := State.finish_next h
  exact .done rfl hfault hwrites

/-- An instruction that raises `f` is Faulted. -/
theorem ExecEnd.of_raise {i : Instr} {s t : State} {f : FaultCode} (h : s.raise f = .next t) (hcase : FaultCase i s f) :
    ExecEnd i s t :=
  .faulted f hcase (State.raise_next h)

/-- Everything an instruction can do. -/
theorem exec_cases {i : Instr} {s t : State} (h : exec i s = .next t) : ExecEnd i s t := by
  cases i with
  | ret =>
    rcases Nat.eq_zero_or_pos s.sp.val with hsp | hsp
    · rw [exec_ret_empty hsp] at h
      exact .of_raise h (.inr (.inl ⟨rfl, hsp, rfl⟩))
    · rw [exec_ret_of_pos hsp] at h
      exact .of_finish h rfl rfl
  | call nnn =>
    rcases s.sp_lt_or_full with hsp | hsp
    · rw [exec_call_of_lt nnn hsp] at h
      exact .of_finish h rfl rfl
    · rw [exec_call_full nnn hsp] at h
      exact .of_raise h (.inl ⟨nnn, rfl, hsp, rfl⟩)
  | skp x =>
    rcases Nat.lt_or_ge (s.getV x).toNat 16 with hx | hx
    · rw [exec_skp_of_lt hx] at h
      exact .of_finish h rfl rfl
    · rw [exec_skp_of_ge hx] at h
      exact .of_raise h (.inr (.inr ⟨x, .inl rfl, hx, rfl⟩))
  | sknp x =>
    rcases Nat.lt_or_ge (s.getV x).toNat 16 with hx | hx
    · rw [exec_sknp_of_lt hx] at h
      exact .of_finish h rfl rfl
    · rw [exec_sknp_of_ge hx] at h
      exact .of_raise h (.inr (.inr ⟨x, .inr rfl, hx, rfl⟩))
  | ldVxK x =>
    cases hkey : s.leastKey with
    | some k =>
      rw [exec_ldVxK_of_some x hkey] at h
      exact .of_finish h rfl rfl
    | none =>
      rw [exec_ldVxK_of_none x hkey] at h
      exact .blocked x rfl hkey (State.block_next h)
  | ldMemVx x =>
    rw [exec_ldMemVx, State.storeRegs_eq] at h
    exact .of_finish h rfl rfl
  | ldVxMem x =>
    rw [exec_ldVxMem, State.loadRegs_eq] at h
    exact .of_finish h rfl rfl
  | _ => exact .of_finish h rfl rfl

/-- A raised fault is a part of its instruction's. -/
theorem FaultCase.fault_mem_writtenBy {i : Instr} {s : State} {f : FaultCode} (h : FaultCase i s f) :
    .fault ∈ Part.writtenBy i := by
  obtain ⟨nnn, rfl, -⟩ | ⟨rfl, -⟩ | ⟨x, rfl | rfl, -⟩ := h <;> decide +revert

theorem FaultCase.ne_none {i : Instr} {s : State} {f : FaultCode} (h : FaultCase i s f) : f ≠ .none := by
  obtain ⟨nnn, -, -, rfl⟩ | ⟨-, -, rfl⟩ | ⟨x, -, -, rfl⟩ := h <;> decide

/-- Every instruction writes only its own parts, however it ends. -/
theorem exec_writesOnly {i : Instr} {s t : State} (h : exec i s = .next t) : WritesOnly (Part.writtenBy i) s t := by
  cases exec_cases h with
  | done _ _ hwrites => exact hwrites
  | blocked x hi hkey ht =>
    subst ht
    simp only [WritesOnly, ite_self]
  | faulted f hcase ht =>
    subst ht
    simp only [WritesOnly, ite_self, if_pos hcase.fault_mem_writtenBy]

/-! What no instruction writes. -/

section
variable {i : Instr} {s t : State} (h : exec i s = .next t)
include h

theorem exec_latch : t.latch = s.latch := by rw [exec_writesOnly h]
theorem exec_run : t.run = s.run := by rw [exec_writesOnly h]
theorem exec_tickEn : t.tickEn = s.tickEn := by rw [exec_writesOnly h]
theorem exec_events : t.events = s.events := by rw [exec_writesOnly h]
theorem exec_loadable : t.loadable = s.loadable := by rw [exec_writesOnly h]
theorem exec_params : t.params = s.params := by rw [exec_writesOnly h]

end

end Sys2Proof.Machine
end

section
/-! PROOFS. The write column of R30, and the invariant: canonical memory, OUTCOME with FAULT, I below INDEX_WRAP. -/

namespace Sys2Proof.Machine

/-! What one register write, or one with a flag after it, keeps of the registers (R20, R21). -/

theorem registersKeptBut_of_v_eq {s t : State} (rs : List Reg) (h : t.v = s.v) : RegistersKeptBut rs s t := by
  intro r _
  simp only [State.getV, h]

theorem registersKeptBut_setFlag (s : State) (f : Bool) : RegistersKeptBut [VF] s (s.setFlag f) :=
  registersKeptBut_setV s VF (flagByte f)

theorem registersKeptBut_setV_setFlag (s : State) (x : Reg) (b : Byte) (f : Bool) :
    RegistersKeptBut [x, VF] s ((s.setV x b).setFlag f) := by
  intro r hr
  simp only [List.mem_cons, List.not_mem_nil, or_false, not_or] at hr
  rw [State.getV_setFlag_ne _ f hr.2, State.getV_setV_ne s b hr.1]

/-- V0 to Vx are the registers that a bulk load of x + 1 names. -/
theorem mem_bulkDestinations {x r : Reg} (h : r.toNat < x.toNat + 1) : r ∈ destinations (.ldVxMem x) :=
  List.mem_map.mpr ⟨r.toNat, List.mem_range.mpr h, by rw [BitVec.ofNat_toNat, BitVec.setWidth_eq]⟩

/-- Every instruction writes only the registers that its row names. -/
theorem exec_registersKeptBut {i : Instr} {s t : State} (h : exec i s = .next t) :
    RegistersKeptBut (destinations i) s t := by
  cases i with
  | ldImm x _ | addImm x _ | ldReg x _ | orReg x _ | andReg x _ | xorReg x _ | rnd x _ | ldVxDt x =>
    obtain rfl := State.finish_next h
    exact registersKeptBut_setV _ x _
  | addReg x _ | subReg x _ | shr x _ | subnReg x _ | shl x _ =>
    obtain rfl := State.finish_next h
    exact registersKeptBut_setV_setFlag s x _ _
  | drw _ _ _ | addI _ =>
    obtain rfl := State.finish_next h
    exact registersKeptBut_setFlag _ _
  | ldVxK x =>
    cases hkey : s.leastKey with
    | some k =>
      rw [exec_ldVxK_of_some x hkey] at h
      obtain rfl := State.finish_next h
      exact registersKeptBut_setV s x _
    | none =>
      rw [exec_ldVxK_of_none x hkey] at h
      exact registersKeptBut_of_v_eq _ (by rw [State.block_next h])
  | ldVxMem x =>
    obtain rfl := State.finish_next h
    exact fun r hr => (s.getV_loadRegs x.isLt r).trans (if_neg (mt mem_bulkDestinations hr))
  | _ => exact registersKeptBut_of_v_eq _ (by rw [exec_writesOnly h]; rfl)

/-- States that agree in memory and font read alike. -/
theorem memoryKept_of_mem_eq {s t : State} (hmem : t.mem = s.mem) (hparams : t.params = s.params) : MemoryKept s t := by
  intro a
  simp only [State.memRead, hmem, hparams]

theorem exec_mem_of_not_written {i : Instr} {s t : State} (h : exec i s = .next t)
    (hi : .memory ∉ Part.writtenBy i) : t.mem = s.mem := by
  rw [exec_writesOnly h]
  exact if_neg hi

/-- Settles O52: the write column is `exec_writesOnly`, and the registers are `exec_registersKeptBut`. -/
theorem everyInstructionWritesOnlyItsParts : Obligations.EveryInstructionWritesOnlyItsParts := by
  unfold Obligations.EveryInstructionWritesOnlyItsParts
  intro i s t h
  have hw := exec_writesOnly h
  refine ⟨exec_registersKeptBut h, fun hp => ?_, fun hp => ?_, fun hp => ⟨?_, ?_⟩, fun hp => ?_, fun hp => ?_,
    fun hp => memoryKept_of_mem_eq (exec_mem_of_not_written h hp) (exec_params h), fun hp => ⟨?_, ?_⟩,
    fun hp => ⟨?_, ?_⟩, fun hp => ?_, exec_latch h, exec_run h, exec_tickEn h, exec_events h, exec_loadable h,
    exec_params h⟩
  all_goals
    rw [hw]
    exact if_neg hp

/-! The invariant, clause by clause. -/

theorem IndexWrap.modulus_pos (w : IndexWrap) : 0 < w.modulus := by
  cases w <;> decide

theorem State.I_setI_lt (s : State) (n : Nat) : (s.setI n).I.toNat < s.params.indexWrap.modulus := by
  rw [State.setI_toNat]
  exact Nat.mod_lt n (IndexWrap.modulus_pos _)

/-- The two instructions that store write canonical memory, and the others write none. -/
theorem exec_memOk {i : Instr} {s t : State} (hs : s.memOk) (h : exec i s = .next t) : t.memOk := by
  cases i with
  | ldB x =>
    obtain rfl := State.finish_next h
    exact State.memOk_memWrite (State.memOk_memWrite (State.memOk_memWrite hs _ _) _ _) _ _
  | ldMemVx x =>
    obtain rfl := State.finish_next h
    exact State.memOk_storeRegs hs _
  | _ =>
    have hmem : t.mem = s.mem := by rw [exec_writesOnly h]; rfl
    rw [State.memOk, hmem, exec_params h]
    exact hs

/-- Every write to I is reduced modulo INDEX_WRAP (R11). -/
theorem exec_I_lt {i : Instr} {s t : State} (hs : s.I.toNat < s.params.indexWrap.modulus) (h : exec i s = .next t) :
    t.I.toNat < t.params.indexWrap.modulus := by
  cases i with
  | ldI _ | addI _ | ldF _ =>
    obtain rfl := State.finish_next h
    exact State.I_setI_lt s _
  | ldMemVx _ | ldVxMem _ =>
    obtain rfl := State.finish_next h
    exact State.I_setI_lt _ _
  | _ =>
    have hI : t.I = s.I := by rw [exec_writesOnly h]; rfl
    rw [hI, exec_params h]
    exact hs

theorem exec_inv {i : Instr} {s t : State} (hf : s.fault = .none) (hs : Inv s) (h : exec i s = .next t) : Inv t := by
  obtain ⟨hmem, -, hI⟩ := hs
  refine ⟨exec_memOk hmem h, ?_, exec_I_lt hI h⟩
  cases exec_cases h with
  | done houtcome hfault _ => simp [houtcome, hfault, hf]
  | blocked _ _ _ ht => simp [ht, hf]
  | faulted f hcase ht => simp [ht, hcase.ne_none]

/-- No clause of the invariant speaks of a timer or an event. -/
theorem State.inv_endStep {s : State} (h : Inv s) : Inv s.endStep := by
  rw [State.endStep_eq]
  exact h

theorem step_inv {s t : State} (hs : Inv s) (h : step s = .next t) : Inv t := by
  obtain ⟨hmem, -, hI⟩ := id hs
  rcases step_cases h with ⟨hf, rfl⟩ | ⟨hf, u, hu, rfl⟩
  · exact ⟨hmem, by simp [hf], hI⟩
  · refine State.inv_endStep ?_
    rcases executePhase_cases hu with ⟨i, -, hi⟩ | ⟨-, rfl⟩
    · exact exec_inv hf hs hi
    · exact ⟨hmem, by simp [hf], hI⟩

/-- Settles O9: clause by clause over the instructions, and the tick touches no clause. -/
theorem everyStepKeepsTheInvariant : Obligations.EveryStepKeepsTheInvariant := by
  unfold Obligations.EveryStepKeepsTheInvariant
  exact fun s t hs h => step_inv hs h

end Sys2Proof.Machine
end

section
/-! PROOFS. The step of R83 and its runs: the execute phase and then the tick, or a faulted core that stands still. -/

namespace Sys2Proof.Machine

/-! One step. -/

theorem step_of_executePhase {s u : State} (hf : s.fault = .none) (h : executePhase s.fetchWord s = .next u) :
    step s = .next u.endStep := by
  simp only [step, if_pos hf, h]

theorem step_of_fault {s : State} (hf : s.fault ≠ .none) : step s = .next { s with outcome := .faulted } := by
  simp only [step, if_neg hf]

theorem executePhase_of_some {w : Word} {i : Instr} (s : State) (h : decodeWord w = some i) :
    executePhase w s = exec i s := by
  simp only [executePhase, h]

theorem executePhase_of_none {w : Word} (s : State) (h : decodeWord w = none) :
    executePhase w s = execUnknown w s := by
  simp only [executePhase, h]

theorem step_of_exec {s u : State} {i : Instr} (hf : s.fault = .none) (hi : decodeWord s.fetchWord = some i)
    (h : exec i s = .next u) : step s = .next u.endStep :=
  step_of_executePhase hf (by rw [executePhase_of_some s hi, h])

theorem step_of_unknown {s : State} (hf : s.fault = .none) (hw : decodeWord s.fetchWord = none) :
    step s = .next ({ s.emit (.diag s.fetchWord s.pc) with pc := s.pc + 2, outcome := .done }).endStep :=
  step_of_executePhase hf (by rw [executePhase_of_none s hw]; rfl)

theorem exists_executePhase_next (w : Word) (s : State) : ∃ t, executePhase w s = .next t := by
  cases h : decodeWord w with
  | some i =>
    rw [executePhase_of_some s h]
    exact exists_exec_next i s
  | none =>
    rw [executePhase_of_none s h]
    exact ⟨_, rfl⟩

theorem exists_step_next (s : State) : ∃ t, step s = .next t := by
  by_cases hf : s.fault = .none
  · obtain ⟨u, hu⟩ := exists_executePhase_next s.fetchWord s
    exact ⟨_, step_of_executePhase hf hu⟩
  · exact ⟨_, step_of_fault hf⟩

/-- The word that a step fetches decodes as its two bytes do (R80). -/
theorem decodeWord_fetchWord_of_decode {s : State} {i : Instr}
    (h : decode [s.memRead s.pc.toNat, s.memRead (s.pc.toNat + 1)] = .ok (i, [])) :
    decodeWord s.fetchWord = some i := by
  obtain ⟨hi, lo, hbytes, hword⟩ := decode_ok h
  obtain ⟨rfl, hlo⟩ := List.cons.inj hbytes
  obtain ⟨rfl, -⟩ := List.cons.inj hlo
  exact hword

/-- Two bytes that do not decode are an UNKNOWN word. -/
theorem decode_unknown {hi lo : Byte} {w : Word} (h : decode [hi, lo] = .error (.unknown w)) :
    w = hi ++ lo ∧ decodeWord (hi ++ lo) = none := by
  cases hword : decodeWord (hi ++ lo) with
  | some i => simp [decode, hword] at h
  | none => exact ⟨by simpa [decode, hword] using h.symm, rfl⟩

/-- Settles O12: the two bytes decode as the fetched word does, and `State.endStep` is the third phase. -/
theorem stepRunsTheDecodedInstruction : Obligations.StepRunsTheDecodedInstruction := by
  unfold Obligations.StepRunsTheDecodedInstruction
  intro s
  refine ⟨step_of_fault, fun i hf _ hdec => ?_, fun w hf hdec => ?_⟩
  · obtain ⟨u, hu⟩ := exists_exec_next i s
    rw [step_of_exec hf (decodeWord_fetchWord_of_decode hdec) hu, hu]
    rfl
  · obtain ⟨rfl, hword⟩ := decode_unknown hdec
    exact step_of_unknown hf hword

/-! The end of a step (R83, R240): the timers and the beep, told by numbers. -/

section
variable (s : State)

theorem State.toNat_dt_endStep : s.endStep.dt.toNat =
    if s.outcome = .done ∧ s.tickEn = true then s.dt.toNat - 1 else s.dt.toNat := by
  unfold State.endStep
  split
  · exact s.toNat_dt_timerTick
  · rfl

theorem State.toNat_st_endStep : s.endStep.st.toNat =
    if s.outcome = .done ∧ s.tickEn = true then s.st.toNat - 1 else s.st.toNat := by
  unfold State.endStep
  split
  · exact s.toNat_st_timerTick
  · rfl

theorem State.events_endStep : s.endStep.events =
    s.events ++ (if s.outcome = .done ∧ s.tickEn = true ∧ s.st = 1 then [.beep] else []) := by
  have hone : s.st.toNat = 1 ↔ s.st = 1 := BitVec.toNat_inj (y := 1#8)
  unfold State.endStep
  split
  · next h => rw [State.events_timerTick]; simp [h, hone]
  · next h =>
    have hquiet : ¬(s.outcome = .done ∧ s.tickEn = true ∧ s.st = 1) := fun hb => h ⟨hb.1, hb.2.1⟩
    rw [if_neg hquiet, List.append_nil]

end

theorem State.endStep_of_not_done {s : State} (h : s.outcome ≠ .done) : s.endStep = s := by
  simp only [State.endStep, h, false_and, if_false]

/-- Settles O14: R220's rule completes, so the step ends with the tick. -/
theorem anUnknownWordIsReportedAndPassed : Obligations.AnUnknownWordIsReportedAndPassed := by
  unfold Obligations.AnUnknownWordIsReportedAndPassed
  intro s hf hw
  refine ⟨_, step_of_unknown hf hw, ?_, ?_, ?_, ?_, ?_, ?_, ?_⟩
  · rw [State.endStep_eq]
  · rw [State.endStep_eq]
  · rw [State.events_endStep]
    simp
  · rw [State.toNat_dt_endStep]
    simp
  · rw [State.toNat_st_endStep]
    simp
  · rw [State.endStep_eq]
    rfl
  · rw [State.endStep_eq]
    exact fun _ => rfl

/-- Settles O15: no instruction emits an event, and `State.events_endStep` says when the tick beeps. -/
theorem eventsOfAStep : Obligations.EventsOfAStep := by
  unfold Obligations.EventsOfAStep
  intro s t hf h
  rcases step_cases h with ⟨hf', -⟩ | ⟨-, u, hu, rfl⟩
  · exact absurd hf hf'
  refine ⟨u, hu, ?_⟩
  rw [State.events_endStep]
  rcases executePhase_cases hu with ⟨i, hi, hexec⟩ | ⟨hw, rfl⟩
  · simp [exec_events hexec, exec_tickEn hexec, hi]
  · simp [hw]

/-! Faults. -/

/-- Settles O19: a step can set FAULT only where its instruction ends Faulted, and then no timer ticks. -/
theorem faultsArePreciseAndOnlyThoseListed : Obligations.FaultsArePreciseAndOnlyThoseListed := by
  unfold Obligations.FaultsArePreciseAndOnlyThoseListed
  intro s t hf h hft
  rcases step_cases h with ⟨hf', -⟩ | ⟨-, u, hu, rfl⟩
  · exact absurd hf hf'
  have hfu : u.fault ≠ .none := by
    rw [State.endStep_eq] at hft
    exact hft
  rcases executePhase_cases hu with ⟨i, hi, hexec⟩ | ⟨-, rfl⟩
  · cases exec_cases hexec with
    | done _ hfault _ => exact absurd (hfault.trans hf) hfu
    | blocked _ _ _ ht => exact absurd (by rw [ht]; exact hf) hfu
    | faulted f hcase ht =>
      subst ht
      rw [State.endStep_of_not_done (fun h => StepEnd.noConfusion h)]
      refine ⟨rfl, ?_⟩
      rw [hi]
      obtain ⟨nnn, rfl, hsp, rfl⟩ | ⟨rfl, hsp, rfl⟩ | ⟨x, rfl | rfl, hx, rfl⟩ := hcase
      · exact .inl ⟨nnn, rfl, hsp, rfl⟩
      · exact .inr (.inl ⟨rfl, hsp, rfl⟩)
      · exact .inr (.inr ⟨x, .inl rfl, hx, rfl⟩)
      · exact .inr (.inr ⟨x, .inr rfl, hx, rfl⟩)
  · exact absurd hf hfu

/-! Runs. -/

/-- Settles O13: every step gives a next state. -/
theorem everyRunGoesOn : Obligations.EveryRunGoesOn := by
  unfold Obligations.EveryRunGoesOn
  intro s n
  induction n generalizing s with
  | zero => exact ⟨s, core_run_zero s⟩
  | succ n ih =>
    obtain ⟨t, ht⟩ := exists_step_next s
    obtain ⟨u, hu⟩ := ih t
    exact ⟨u, (core_run_succ n ht).trans hu⟩

/-- Settles O18: one step of a faulted core sets OUTCOME alone, and so does every further one. -/
theorem aFaultedCoreStandsStill : Obligations.AFaultedCoreStandsStill := by
  unfold Obligations.AFaultedCoreStandsStill
  intro s n hf
  induction n generalizing s with
  | zero => exact core_run_succ 0 (step_of_fault hf)
  | succ n ih => exact (core_run_succ (n + 1) (step_of_fault hf)).trans (ih { s with outcome := .faulted } hf)

/-! Halting (R266). -/

theorem HaltedAt.decodeWord {a : Addr} {s : State} (h : HaltedAt a s) : decodeWord s.fetchWord = some (.jp a) := by
  rw [h.2]
  exact decodeWord_encode (.jp a)

/-- A step at the self-jump comes back to it, and only timers, events and OUTCOME move. -/
theorem HaltedAt.step {a : Addr} {s : State} (hf : s.fault = .none) (h : HaltedAt a s) :
    ∃ t, step s = .next t ∧ t = { s with dt := t.dt, st := t.st, events := t.events, outcome := t.outcome } := by
  refine ⟨_, step_of_exec hf h.decodeWord (exec_jp a s), ?_⟩
  rw [← h.1, State.endStep_eq]

/-- Settles O20: by induction on the steps, each of which comes back to the self-jump. -/
theorem aHaltedCoreStaysHalted : Obligations.AHaltedCoreStaysHalted := by
  unfold Obligations.AHaltedCoreStaysHalted
  intro a s n hf h
  induction n generalizing s with
  | zero => exact ⟨s, core_run_zero s, h, rfl⟩
  | succ n ih =>
    obtain ⟨t, hstep, ht⟩ := h.step hf
    have hft : t.fault = .none := by rw [ht]; exact hf
    have hht : HaltedAt a t := by rw [ht]; exact h
    obtain ⟨u, hrun, hhu, hu⟩ := ih t hft hht
    refine ⟨u, (core_run_succ n hstep).trans hrun, hhu, ?_⟩
    rw [hu, ht]

end Sys2Proof.Machine
end

section
/-! PROOFS. The host's calls (R247, R260 to R264): which parts each may write, the reset values, and the invariant
along every list of calls. -/

namespace Sys2Proof.Machine

/-! Reset (R260). -/

/-- R40's values hold after `reset()`, whatever state it is called in. -/
theorem State.hasResetValues_resetAll (s : State) : HasResetValues s.resetAll := by
  refine ⟨fun r => ?_, rfl, rfl, rfl, fun k hk => ?_, rfl, rfl, fun a ha => ?_, fun a ha ha' => ?_,
    fbPixel_blank, rfl, fun k => ?_, rfl, rfl⟩
  · exact Vector.getElem_replicate _
  · exact Vector.getElem_replicate _
  · have hmod : a % memSize = a := Nat.mod_eq_of_lt (by simp only [memSize]; omega)
    simp [State.memRead, State.resetAll, State.reset, Memory.read, Memory.initial, hmod, ha]
  · have hmod : a % memSize = a := Nat.mod_eq_of_lt ha'
    simp [State.memRead, State.resetAll, State.reset, Memory.read, Memory.initial, hmod, Nat.not_lt.mpr ha]
  · exact Vector.getElem_replicate _

theorem State.inv_resetAll (s : State) : Inv s.resetAll :=
  ⟨rfl, by simp [State.resetAll, State.reset], IndexWrap.modulus_pos _⟩

/-- Settles O6: the reset state is what `reset()` makes of it. -/
theorem resetHoldsTheListedValues : Obligations.ResetHoldsTheListedValues :=
  State.hasResetValues_resetAll State.reset

/-- Settles O8: the reset state is what `reset()` makes of it. -/
theorem invariantHoldsAtReset : Obligations.InvariantHoldsAtReset :=
  State.inv_resetAll State.reset

/-! Issuing a step (R248, R249). -/

theorem State.issueStep_next {s t : State} {rnd : Byte} {tick : Bool} {r : HostReply}
    (h : hostCall (.issueStep rnd tick) s = .next (t, r)) :
    step { s with rndIn := [rnd], tickEn := tick } = .next t := by
  simp only [hostCall, State.issueStep] at h
  split at h
  · split at h
    · next u hu =>
      obtain ⟨rfl, -⟩ := Prod.mk.inj (Host.Outcome.next.inj h)
      exact hu
    · cases h
    · cases h
  · cases h

/-! Loading (R263, R264). -/

/-- A load that goes through is the copy of an image, of the whole one or of its first 3584 bytes. -/
theorem State.loadProgram_next {s t : State} {source : Option (List Byte)} {r : HostReply}
    (h : hostCall (.loadProgram source) s = .next (t, r)) :
    ∃ image, t = { s.loadImageAt progBase image with loadable := false } := by
  simp only [hostCall, State.loadProgram] at h
  split at h
  · cases h
  · cases source with
    | none => cases h
    | some image =>
      simp only at h
      split at h
      · exact ⟨image, (Prod.mk.inj (Host.Outcome.next.inj h)).1.symm⟩
      · split at h
        · cases h
        · exact ⟨image.take progMax, (Prod.mk.inj (Host.Outcome.next.inj h)).1.symm⟩
        · cases h

/-- `t` is `s` but for the host's own flags: LATCH, DIRTY, RUN and the model's load flag. -/
def OnlyHostFlags (s t : State) : Prop :=
  t = { s with latch := t.latch, dirty := t.dirty, run := t.run, loadable := t.loadable }

/-- Everything a host call other than `reset` and a step can write: the host's own flags, or an image into memory. -/
theorem hostCall_cases {c : HostCall} {s t : State} {r : HostReply} (hreset : c ≠ .reset)
    (hstep : ∀ b e, c ≠ .issueStep b e) (h : hostCall c s = .next (t, r)) :
    OnlyHostFlags s t ∨
    ∃ source image, c = .loadProgram source ∧ t = { s.loadImageAt progBase image with loadable := false } := by
  cases c with
  | issueStep b e => exact absurd rfl (hstep b e)
  | reset => exact absurd rfl hreset
  | loadProgram source =>
    obtain ⟨image, ht⟩ := State.loadProgram_next h
    exact .inr ⟨source, image, rfl, ht⟩
  | setKey k b =>
    simp only [hostCall, State.setKey] at h
    split at h <;> cases h
    exact .inl rfl
  | start =>
    simp only [hostCall, State.start] at h
    split at h <;> cases h <;> exact .inl rfl
  | stop =>
    simp only [hostCall, State.stop] at h
    split at h <;> cases h
    exact .inl rfl
  | pause =>
    simp only [hostCall, State.pause] at h
    split at h <;> cases h
    exact .inl rfl
  | getFramebufferSnapshot | isDirty | markClean | isRunning =>
    cases h
    exact .inl rfl

/-- Settles O59: the host's own flags are no part of the core, and an image goes to memory alone. -/
theorem hostCallsLeaveTheCoreAlone : Obligations.HostCallsLeaveTheCoreAlone := by
  unfold Obligations.HostCallsLeaveTheCoreAlone
  intro c s t r hreset hstep h
  rcases hostCall_cases hreset hstep h with hflags | ⟨source, image, rfl, rfl⟩
  · rw [hflags]
    exact ⟨rfl, rfl, rfl, rfl, rfl, rfl, rfl, rfl, rfl, fun _ _ => rfl⟩
  · rw [State.loadImageAt_eq]
    exact ⟨rfl, rfl, rfl, rfl, rfl, rfl, rfl, rfl, rfl, fun hload => absurd rfl (hload source)⟩

/-- A host call that is neither `reset` nor a step leaves FAULT. -/
theorem hostCall_fault {c : HostCall} {s t : State} {r : HostReply} (hreset : c ≠ .reset)
    (hstep : ∀ b e, c ≠ .issueStep b e) (h : hostCall c s = .next (t, r)) : t.fault = s.fault := by
  obtain ⟨-, -, -, -, -, -, -, -, hfault, -⟩ := hostCallsLeaveTheCoreAlone c s t r hreset hstep h
  exact hfault

theorem step_fault_of_ne_none {s t : State} (hf : s.fault ≠ .none) (h : step s = .next t) : t.fault = s.fault := by
  rcases step_cases h with ⟨-, rfl⟩ | ⟨hf', -⟩
  · rfl
  · exact absurd hf' hf

/-- Settles O7: of the host calls only a step could reach FAULT besides `reset`, and a faulted core stands still. -/
theorem onlyResetClearsAFault : Obligations.OnlyResetClearsAFault := by
  unfold Obligations.OnlyResetClearsAFault
  refine ⟨fun s => ⟨_, rfl, s.hasResetValues_resetAll, rfl⟩, fun c s t r hreset hf h => ?_⟩
  by_cases hstep : ∃ b e, c = .issueStep b e
  · obtain ⟨b, e, rfl⟩ := hstep
    exact step_fault_of_ne_none (s := { s with rndIn := [b], tickEn := e }) hf (State.issueStep_next h)
  · exact hostCall_fault hreset (fun b e hc => hstep ⟨b, e, hc⟩) h

/-! The invariant along host calls. -/

theorem hostCall_inv {c : HostCall} {s t : State} {r : HostReply} (hs : Inv s) (h : hostCall c s = .next (t, r)) :
    Inv t := by
  by_cases hreset : c = .reset
  · subst hreset
    obtain ⟨rfl, -⟩ := Prod.mk.inj (Host.Outcome.next.inj h)
    exact s.inv_resetAll
  by_cases hstep : ∃ b e, c = .issueStep b e
  · obtain ⟨b, e, rfl⟩ := hstep
    have hports : Inv { s with rndIn := [b], tickEn := e } := hs
    exact step_inv hports (State.issueStep_next h)
  rcases hostCall_cases hreset (fun b e hc => hstep ⟨b, e, hc⟩) h with hflags | ⟨-, image, -, rfl⟩
  · rw [hflags]
    exact hs
  · obtain ⟨hmem, hrest⟩ := hs
    refine ⟨State.memOk_loadImageAt hmem progBase image, ?_⟩
    rw [State.loadImageAt_eq]
    exact hrest

/-- Settles O10: by induction on the calls; one that is refused or answers LoadError changes nothing. -/
theorem everyHostRunKeepsTheInvariant : Obligations.EveryHostRunKeepsTheInvariant := by
  unfold Obligations.EveryHostRunKeepsTheInvariant
  intro s calls hs
  induction calls generalizing s with
  | nil => exact hs
  | cons c calls ih =>
    rw [hostRun]
    split
    · next t r h => exact ih t (hostCall_inv hs h)
    · exact ih s hs
    · exact ih s hs

/-! Calls that move one flag or none (R247, R249). -/

/-- Settles O55: each call is its one flag's update, or an answer. -/
theorem hostFlagCallsTouchOneFlagAtMost : Obligations.HostFlagCallsTouchOneFlagAtMost := by
  unfold Obligations.HostFlagCallsTouchOneFlagAtMost
  intro s
  refine ⟨fun k b h => ?_, fun k b h => ?_, ⟨s.fb, rfl, fun _ _ => rfl⟩, rfl, ⟨_, rfl, decide_eq_true_iff⟩, rfl⟩
  · refine ⟨{ s with latch := s.latch.set k b h }, by simp only [hostCall, State.setKey, dif_pos h], ?_,
      fun j hj => ?_, rfl⟩
    · exact Vector.getElem_set_self h
    · exact Vector.getElem_set_ne h j.isLt hj.symm
  · simp only [hostCall, State.setKey, dif_neg (Nat.not_lt.mpr h)]

/-! The image (R263, R264). -/

section
variable {s : State} (hrun : s.run ≠ .running) (hload : s.loadable = true)
include hrun hload

theorem State.loadProgram_unreadable : hostCall (.loadProgram none) s = .fault .loadError := by
  simp [hostCall, State.loadProgram, hrun, hload]

theorem State.loadProgram_of_le {image : List Byte} (hlen : image.length ≤ progMax) :
    hostCall (.loadProgram (some image)) s = s.loadImage image := by
  simp [hostCall, State.loadProgram, hrun, hload, hlen]

theorem State.loadProgram_refuse {image : List Byte} (hlen : progMax < image.length)
    (ho : s.params.loadOversize = .refuse) : hostCall (.loadProgram (some image)) s = .refused .oversizeImage := by
  simp [hostCall, State.loadProgram, hrun, hload, hlen, ho]

theorem State.loadProgram_reject {image : List Byte} (hlen : progMax < image.length)
    (ho : s.params.loadOversize = .reject) : hostCall (.loadProgram (some image)) s = .fault .loadError := by
  simp [hostCall, State.loadProgram, hrun, hload, hlen, ho]

theorem State.loadProgram_truncate {image : List Byte} (hlen : progMax < image.length)
    (ho : s.params.loadOversize = .truncate) :
    hostCall (.loadProgram (some image)) s = s.loadImage (image.take progMax) := by
  simp [hostCall, State.loadProgram, hrun, hload, hlen, ho]

end

theorem State.loadProgram_not_admitted {s : State} (source : Option (List Byte))
    (h : s.run = .running ∨ s.loadable = false) : hostCall (.loadProgram source) s = .refused .loadNotAdmitted := by
  simp only [hostCall, State.loadProgram, if_pos h]

/-- The copy of an image that fits (R263): its bytes from 0x200 on, and every other byte as it was. -/
theorem State.loadImage_copies {s : State} (hmem : s.memOk) {image : List Byte} (hlen : image.length ≤ progMax) :
    ∃ t, s.loadImage image = .next (t, .loaded image.length) ∧
      (∀ k (h : k < image.length), t.memRead (progBase + k) = image[k]) ∧
      (∀ a, a < 4096 → (a < progBase ∨ progBase + image.length ≤ a) → t.memRead a = s.memRead a) ∧
      t = { s with mem := t.mem, loadable := false } := by
  have hfits : progBase + image.length ≤ 4096 := by
    simp only [progMax, memSize, progBase] at hlen ⊢
    omega
  obtain ⟨hbytes, hkept⟩ := State.memRead_loadImageAt hmem progBase image hfits
  exact ⟨_, rfl, hbytes, hkept, by rw [State.loadImageAt_eq]⟩

/-- Settles O56: an admitted image that fits is copied whole. -/
theorem loadProgramCopiesTheImage : Obligations.LoadProgramCopiesTheImage := by
  unfold Obligations.LoadProgramCopiesTheImage
  intro s image hmem hrun hload hlen
  rw [State.loadProgram_of_le hrun hload hlen]
  exact State.loadImage_copies hmem hlen

/-- A load that gives no next state is passed over in a host run. -/
theorem hostRun_cons_of_no_next {c : HostCall} {s : State} (calls : List HostCall)
    (h : ∀ t r, hostCall c s ≠ .next (t, r)) : hostRun s (c :: calls) = hostRun s calls := by
  rw [hostRun]
  split
  · next t r ht => exact absurd ht (h t r)
  · rfl
  · rfl

/-- Settles O57: one equation for each way a load can go, and the cut image is an image that fits. -/
theorem anOversizeImageWritesNothingBelowTheProgram : Obligations.AnOversizeImageWritesNothingBelowTheProgram := by
  unfold Obligations.AnOversizeImageWritesNothingBelowTheProgram
  intro s
  refine ⟨fun source h => State.loadProgram_not_admitted source h,
    fun hrun hload => State.loadProgram_unreadable hrun hload,
    fun image hrun hload hlen => ⟨fun ho => State.loadProgram_refuse hrun hload hlen ho,
      fun ho => State.loadProgram_reject hrun hload hlen ho, fun ho hmem => ?_⟩,
    fun source calls h => hostRun_cons_of_no_next calls h⟩
  have hcut : (image.take progMax).length = 3584 := by
    rw [List.length_take]
    exact Nat.min_eq_left hlen.le
  obtain ⟨t, ht, hbytes, hkept, hframe⟩ := State.loadImage_copies hmem hcut.le
  rw [State.loadProgram_truncate hrun hload hlen ho, ht, hcut]
  refine ⟨t, rfl, fun k h hk => ?_, fun a ha => hkept a (by omega) (.inl ha), hframe⟩
  rw [hbytes k (hcut.symm ▸ hk), List.getElem_take]

/-! RUN (R249). -/

theorem State.issueStep_of_next {s t : State} {rnd : Byte} {tick : Bool} (hrun : s.run = .running)
    (h : step { s with rndIn := [rnd], tickEn := tick } = .next t) :
    hostCall (.issueStep rnd tick) s = .next (t, .unit) := by
  simp only [hostCall, State.issueStep, if_pos hrun, h]

/-- Settles O58: each call by its case in RUN, and an issued step always gives a next state. -/
theorem runStateGovernsSteps : Obligations.RunStateGovernsSteps := by
  unfold Obligations.RunStateGovernsSteps
  intro s
  refine ⟨⟨_, rfl, rfl, s.hasResetValues_resetAll⟩, fun hrun => ?_, fun hrun => ⟨?_, ?_⟩, fun rnd tick hrun => ?_,
    fun rnd tick hrun => ?_⟩
  · rcases hrun with hrun | hrun <;> simp only [hostCall, State.start, hrun]
  · simp only [hostCall, State.stop, hrun]
  · simp only [hostCall, State.pause, hrun]
  · simp only [hostCall, State.issueStep, if_neg hrun]
  · obtain ⟨t, ht⟩ := exists_step_next { s with rndIn := [rnd], tickEn := tick }
    exact ⟨t, ht, State.issueStep_of_next hrun ht⟩

end Sys2Proof.Machine
end

section
/-! PROOFS. Two runs compared: what an instruction does not read cannot change what it does (R51, R145, R200, R243), and
the two settings of RET_ADDS_2 are equal to every observer (R111). -/

namespace Sys2Proof.Machine

/-! Bulk transfers depend on the registers, memory, the font and the addresses alone. -/

theorem State.memWrite_mem_congr {s t : State} (hmem : t.mem = s.mem) (hfont : t.params.font = s.params.font)
    {a c : Nat} (hac : c % memSize = a % memSize) (b : Byte) : (t.memWrite c b).mem = (s.memWrite a b).mem := by
  simp only [State.memWrite, hmem, hfont, hac]

theorem State.memRead_congr {s t : State} (hmem : t.mem = s.mem) (hfont : t.params.font = s.params.font) {a c : Nat}
    (hac : c % memSize = a % memSize) : t.memRead c = s.memRead a := by
  simp only [State.memRead, hmem, hfont, hac]

section
variable {s t : State} (hv : t.v = s.v) (hmem : t.mem = s.mem) (hfont : t.params.font = s.params.font)
  (haddr : ∀ k, t.effAddr k % memSize = s.effAddr k % memSize)
include hv hmem hfont haddr

theorem State.storeRegs_mem_congr (n : Nat) : (t.storeRegs n).mem = (s.storeRegs n).mem := by
  induction n with
  | zero => exact hmem
  | succ n ih =>
    have hget : t.getV (BitVec.ofNat 4 n) = s.getV (BitVec.ofNat 4 n) := by simp only [State.getV, hv]
    simp only [State.storeRegs, hget]
    exact State.memWrite_mem_congr ih (by simp only [State.storeRegs_params, hfont]) (haddr n) _

theorem State.loadRegs_v_congr (n : Nat) : (t.loadRegs n).v = (s.loadRegs n).v := by
  induction n with
  | zero => exact hv
  | succ n ih => simp only [State.loadRegs, State.setV, ih, State.memRead_congr hmem hfont (haddr n)]

end

theorem exec_ldMemVx_eq (x : Reg) (s : State) : exec (.ldMemVx x) s = .next { s with
    mem := (s.storeRegs (x.toNat + 1)).mem
    I := (s.setI (s.I.toNat + x.toNat + 1)).I
    pc := s.pc + 2
    outcome := .done } := by
  rw [exec_ldMemVx, State.storeRegs_eq]
  rfl

theorem exec_ldVxMem_eq (x : Reg) (s : State) : exec (.ldVxMem x) s = .next { s with
    v := (s.loadRegs (x.toNat + 1)).v
    I := (s.setI (s.I.toNat + x.toNat + 1)).I
    pc := s.pc + 2
    outcome := .done } := by
  rw [exec_ldVxMem, State.loadRegs_eq]
  rfl

/-! What some instructions read and the others do not. -/

/-- The parts of the state that only some instructions read: I, the return entries with RET_ADDS_2, and the inputs of a
step, KEY, RND (with the draw counter) and TICK_EN. -/
structure PartlyRead where
  index : Word
  stack : Vector Addr 16
  retAdds2 : Bool
  keys : Vector Bool 16
  rndIn : List Byte
  draws : Nat
  tickEn : Bool

/-- Those parts of `s`. -/
def State.partlyRead (s : State) : PartlyRead :=
  { index := s.I, stack := s.stack, retAdds2 := s.params.retAdds2, keys := s.latch, rndIn := s.rndIn, draws := s.draws,
    tickEn := s.tickEn }

/-- `s` with those parts taken from `p`. -/
def State.withPartlyRead (s : State) (p : PartlyRead) : State :=
  { s with
    I := p.index, stack := p.stack, params := { s.params with retAdds2 := p.retAdds2 }, latch := p.keys,
    rndIn := p.rndIn, draws := p.draws, tickEn := p.tickEn }

/-- DRW, Fx1E, Fx33, Fx55 and Fx65: the instructions that read I (R160, R162, R182). -/
def readsIndex : Instr → Bool
  | .drw _ _ _ | .addI _ | .ldB _ | .ldMemVx _ | .ldVxMem _ => true
  | _ => false

/-- `p` differs from `s` only in parts that instruction `i` does not read. -/
structure AgreesWhereRead (i : Instr) (s : State) (p : PartlyRead) : Prop where
  index : readsIndex i = true → p.index = s.I
  stack : .stack ∈ Part.writtenBy i → p.stack = s.stack ∧ p.retAdds2 = s.params.retAdds2
  keys : readsKeys i = true → p.keys = s.latch
  random : .randomInput ∈ Part.writtenBy i → p.rndIn = s.rndIn ∧ p.draws = s.draws

/-- The parts `p` after `i` has led to `t`: what `i` writes is as in `t`, and the rest stays. -/
def PartlyRead.after (p : PartlyRead) (i : Instr) (t : State) : PartlyRead :=
  { p with
    index := if .index ∈ Part.writtenBy i then t.I else p.index
    stack := if .stack ∈ Part.writtenBy i then t.stack else p.stack
    rndIn := if .randomInput ∈ Part.writtenBy i then t.rndIn else p.rndIn
    draws := if .randomInput ∈ Part.writtenBy i then t.draws else p.draws }

/-- The outcome of a step, with its next state changed by `f`. -/
def mapNext (f : State → State) : Host.Outcome State Fault Refusal → Host.Outcome State Fault Refusal
  | .next t => .next (f t)
  | .fault r => .fault r
  | .refused r => .refused r

/-- An instruction does the same whatever the parts hold that it does not read. -/
theorem exec_withPartlyRead {i : Instr} {s : State} {p : PartlyRead} (h : AgreesWhereRead i s p) :
    exec i (s.withPartlyRead p) = mapNext (fun t => t.withPartlyRead (p.after i t)) (exec i s) := by
  obtain ⟨hindex, hstack, hkeys, hrandom⟩ := h
  obtain ⟨index, stack, retAdds2, keys, rndIn, draws, tickEn⟩ := p
  cases i with
  | ret =>
    obtain ⟨rfl, rfl⟩ := hstack (List.mem_of_elem_eq_true rfl)
    rcases Nat.eq_zero_or_pos s.sp.val with hsp | hsp
    · rw [exec_ret_empty hsp, exec_ret_empty (s := s.withPartlyRead _) hsp]
      rfl
    · rw [exec_ret_of_pos hsp, exec_ret_of_pos (s := s.withPartlyRead _) hsp]
      rfl
  | call nnn =>
    obtain ⟨rfl, rfl⟩ := hstack (List.mem_of_elem_eq_true rfl)
    rcases s.sp_lt_or_full with hsp | hsp
    · rw [exec_call_of_lt nnn hsp, exec_call_of_lt (s := s.withPartlyRead _) nnn hsp]
      rfl
    · rw [exec_call_full nnn hsp, exec_call_full (s := s.withPartlyRead _) nnn hsp]
      rfl
  | skp x =>
    obtain rfl := hkeys rfl
    rcases Nat.lt_or_ge (s.getV x).toNat 16 with hx | hx
    · rw [exec_skp_of_lt hx, exec_skp_of_lt (s := s.withPartlyRead _) hx]
      rfl
    · rw [exec_skp_of_ge hx, exec_skp_of_ge (s := s.withPartlyRead _) hx]
      rfl
  | sknp x =>
    obtain rfl := hkeys rfl
    rcases Nat.lt_or_ge (s.getV x).toNat 16 with hx | hx
    · rw [exec_sknp_of_lt hx, exec_sknp_of_lt (s := s.withPartlyRead _) hx]
      rfl
    · rw [exec_sknp_of_ge hx, exec_sknp_of_ge (s := s.withPartlyRead _) hx]
      rfl
  | ldVxK x =>
    obtain rfl := hkeys rfl
    have hsame : (s.withPartlyRead ⟨index, stack, retAdds2, s.latch, rndIn, draws, tickEn⟩).leastKey = s.leastKey :=
      rfl
    cases hk : s.leastKey with
    | some k =>
      rw [exec_ldVxK_of_some x hk, exec_ldVxK_of_some x (hsame.trans hk)]
      rfl
    | none =>
      rw [exec_ldVxK_of_none x hk, exec_ldVxK_of_none x (hsame.trans hk)]
      rfl
  | rnd x kk =>
    obtain ⟨rfl, rfl⟩ := hrandom (List.mem_of_elem_eq_true rfl)
    rfl
  | ldMemVx x =>
    obtain rfl := hindex rfl
    rw [exec_ldMemVx_eq, exec_ldMemVx_eq,
      State.storeRegs_mem_congr (s := s) (t := s.withPartlyRead _) rfl rfl rfl fun _ => rfl]
    rfl
  | ldVxMem x =>
    obtain rfl := hindex rfl
    rw [exec_ldVxMem_eq, exec_ldVxMem_eq,
      State.loadRegs_v_congr (s := s) (t := s.withPartlyRead _) rfl rfl rfl fun _ => rfl]
    rfl
  | drw _ _ _ | addI _ | ldB _ =>
    obtain rfl := hindex rfl
    rfl
  | _ => rfl

theorem exec_withPartlyRead_next {i : Instr} {s t : State} {p : PartlyRead} (h : exec i s = .next t)
    (hp : AgreesWhereRead i s p) : exec i (s.withPartlyRead p) = .next (t.withPartlyRead (p.after i t)) := by
  rw [exec_withPartlyRead hp, h]
  rfl

/-- After an instruction, the parts it writes are those of the state it led to, and it has kept the rest. -/
theorem partlyRead_after_of_exec {i : Instr} {s t : State} (h : exec i s = .next t) :
    s.partlyRead.after i t = t.partlyRead := by
  have hw := exec_writesOnly h
  simp only [PartlyRead.after, State.partlyRead, PartlyRead.mk.injEq]
  exact ⟨(congrArg State.I hw).symm, (congrArg State.stack hw).symm, by rw [exec_params h], (exec_latch h).symm,
    (congrArg State.rndIn hw).symm, (congrArg State.draws hw).symm, (exec_tickEn h).symm⟩

section
variable {i : Instr} {s t : State} (h : exec i s = .next t)
include h

/-- KEY is read by Ex9E, ExA1 and Fx0A alone (R200). -/
theorem exec_with_latch (keys : Vector Bool 16) (hi : readsKeys i = false) :
    exec i { s with latch := keys } = .next { t with latch := keys } := by
  have hp : AgreesWhereRead i s { s.partlyRead with keys := keys } :=
    ⟨fun _ => rfl, fun _ => ⟨rfl, rfl⟩, fun hr => Bool.noConfusion (hi.symm.trans hr), fun _ => ⟨rfl, rfl⟩⟩
  have hafter : ({ s.partlyRead with keys := keys }).after i t = { t.partlyRead with keys := keys } := by
    rw [← partlyRead_after_of_exec h]
    rfl
  exact (exec_withPartlyRead_next h hp).trans (by rw [hafter]; rfl)

/-- RND is read by Cxkk alone (R145). -/
theorem exec_with_rnd (bytes : List Byte) (d : Nat) (hi : .randomInput ∉ Part.writtenBy i) :
    exec i { s with rndIn := bytes, draws := d } = .next { t with rndIn := bytes, draws := d } := by
  have hp : AgreesWhereRead i s { s.partlyRead with rndIn := bytes, draws := d } :=
    ⟨fun _ => rfl, fun _ => ⟨rfl, rfl⟩, fun _ => rfl, fun hr => absurd hr hi⟩
  have hafter : ({ s.partlyRead with rndIn := bytes, draws := d }).after i t =
      { t.partlyRead with rndIn := bytes, draws := d } := by
    rw [← partlyRead_after_of_exec h]
    simp only [PartlyRead.after, if_neg hi]
  exact (exec_withPartlyRead_next h hp).trans (by rw [hafter]; rfl)

/-- TICK_EN is read by no instruction (R243). -/
theorem exec_with_tickEn (b : Bool) : exec i { s with tickEn := b } = .next { t with tickEn := b } := by
  have hp : AgreesWhereRead i s { s.partlyRead with tickEn := b } :=
    ⟨fun _ => rfl, fun _ => ⟨rfl, rfl⟩, fun _ => rfl, fun _ => ⟨rfl, rfl⟩⟩
  have hafter : ({ s.partlyRead with tickEn := b }).after i t = { t.partlyRead with tickEn := b } := by
    rw [← partlyRead_after_of_exec h]
    rfl
  exact (exec_withPartlyRead_next h hp).trans (by rw [hafter]; rfl)

/-- I is read by the five instructions of `readsIndex` alone. -/
theorem exec_with_index (j : Word) (hi : readsIndex i = false) :
    exec i { s with I := j } = .next { t with I := if .index ∈ Part.writtenBy i then t.I else j } := by
  have hp : AgreesWhereRead i s { s.partlyRead with index := j } :=
    ⟨fun hr => Bool.noConfusion (hi.symm.trans hr), fun _ => ⟨rfl, rfl⟩, fun _ => rfl, fun _ => ⟨rfl, rfl⟩⟩
  have hafter : ({ s.partlyRead with index := j }).after i t =
      { t.partlyRead with index := if .index ∈ Part.writtenBy i then t.I else j } := by
    rw [← partlyRead_after_of_exec h]
    rfl
  exact (exec_withPartlyRead_next h hp).trans (by rw [hafter]; rfl)

/-- The return entries and RET_ADDS_2 are read by CALL and RET alone (R110, R113). -/
theorem exec_with_returnSetting (r : Bool) (stack : Vector Addr 16) (hi : .stack ∉ Part.writtenBy i) :
    exec i { s with params := { s.params with retAdds2 := r }, stack := stack } =
      .next { t with params := { t.params with retAdds2 := r }, stack := stack } := by
  have hp : AgreesWhereRead i s { s.partlyRead with retAdds2 := r, stack := stack } :=
    ⟨fun _ => rfl, fun hr => absurd hr hi, fun _ => rfl, fun _ => ⟨rfl, rfl⟩⟩
  have hafter : ({ s.partlyRead with retAdds2 := r, stack := stack }).after i t =
      { t.partlyRead with retAdds2 := r, stack := stack } := by
    rw [← partlyRead_after_of_exec h]
    simp only [PartlyRead.after, if_neg hi]
  exact (exec_withPartlyRead_next h hp).trans (by rw [hafter]; rfl)

end

/-- Settles O53: one of the clauses for each input of a step. -/
theorem inputsAreReadOnlyWhereListed : Obligations.InputsAreReadOnlyWhereListed := by
  unfold Obligations.InputsAreReadOnlyWhereListed
  exact fun i s t h => ⟨exec_with_latch h, exec_with_rnd h, exec_with_tickEn h⟩

/-! TICK_EN in a step (R83, R243). -/

/-- Settles O54: the execute phase does not read TICK_EN, and the end of a step changes timers and events alone. -/
theorem tickEnableTouchesOnlyTheTimers : Obligations.TickEnableTouchesOnlyTheTimers := by
  unfold Obligations.TickEnableTouchesOnlyTheTimers
  intro s t b h
  rcases step_cases h with ⟨hf, rfl⟩ | ⟨hf, u, hu, rfl⟩
  · exact ⟨_, step_of_fault (s := { s with tickEn := b }) hf, rfl⟩
  have hu' : executePhase s.fetchWord { s with tickEn := b } = .next { u with tickEn := b } := by
    rcases executePhase_cases hu with ⟨i, hi, hexec⟩ | ⟨hw, rfl⟩
    · rw [executePhase_of_some _ hi]
      exact exec_with_tickEn hexec b
    · rw [executePhase_of_none _ hw]
      rfl
  refine ⟨_, step_of_executePhase (s := { s with tickEn := b }) hf hu', ?_⟩
  rw [State.endStep_eq, State.endStep_eq u]

/-! I modulo 4096 (R23, R51, R160). -/

section
variable {s : State} {j : Word} (hj : j.toNat % 4096 = s.I.toNat % 4096)
include hj

theorem State.effAddr_mod_congr (k : Nat) : ({ s with I := j }).effAddr k % memSize = s.effAddr k % memSize := by
  simp only [State.effAddr, memSize]
  omega

theorem State.memRead_effAddr_congr (k : Nat) :
    ({ s with I := j }).memRead (({ s with I := j }).effAddr k) = s.memRead (s.effAddr k) :=
  State.memRead_congr rfl rfl (State.effAddr_mod_congr hj k)

theorem State.threeWrites_mem_congr (b₀ b₁ b₂ : Byte) :
    ((((({ s with I := j }).memWrite (({ s with I := j }).effAddr 0) b₀).memWrite (({ s with I := j }).effAddr 1)
      b₁).memWrite (({ s with I := j }).effAddr 2) b₂)).mem =
    (((s.memWrite (s.effAddr 0) b₀).memWrite (s.effAddr 1) b₁).memWrite (s.effAddr 2) b₂).mem := by
  have h₀ := State.memWrite_mem_congr (s := s) (t := { s with I := j }) rfl rfl (State.effAddr_mod_congr hj 0) b₀
  have h₁ := State.memWrite_mem_congr h₀ rfl (State.effAddr_mod_congr hj 1) b₁
  exact State.memWrite_mem_congr h₁ rfl (State.effAddr_mod_congr hj 2) b₂

theorem State.drawSprite_congr (x y : Reg) (n : Nibble) :
    ({ s with I := j }).drawSprite x y n = s.drawSprite x y n := by
  have hrows : ({ s with I := j }).spriteRows n.toNat = s.spriteRows n.toNat :=
    List.map_congr_left fun r _ => State.memRead_effAddr_congr hj r
  simp only [State.drawSprite, hrows]
  rfl

end

theorem exec_drw (x y : Reg) (n : Nibble) (s : State) :
    exec (.drw x y n) s = (({ s with fb := (s.drawSprite x y n).1, dirty := true }).setFlag
      (s.drawSprite x y n).2).finish (s.pc + 2) := rfl

/-- Settles O43: an instruction that does not read I does the same, and the transfers and DRW read I through
`State.effAddr`, whose bytes are those of I modulo 4096. -/
theorem highIndexBitsSelectNoByte : Obligations.HighIndexBitsSelectNoByte := by
  unfold Obligations.HighIndexBitsSelectNoByte
  intro i s t j hi hj h
  cases i with
  | addI x => exact absurd rfl (hi x)
  | drw x y n =>
    rw [exec_drw] at h ⊢
    obtain rfl := State.finish_next h
    refine ⟨_, rfl, ?_⟩
    rw [State.drawSprite_congr hj]
    rfl
  | ldB x =>
    rw [exec_ldB] at h ⊢
    obtain rfl := State.finish_next h
    exact ⟨_, rfl, congrArg (fun m => ({ s with I := j, mem := m, pc := s.pc + 2, outcome := .done } : State))
      (State.threeWrites_mem_congr hj _ _ _)⟩
  | ldMemVx x =>
    rw [exec_ldMemVx_eq] at h ⊢
    obtain rfl := Host.Outcome.next.inj h
    refine ⟨_, rfl, ?_⟩
    rw [State.storeRegs_mem_congr (s := s) (t := { s with I := j }) rfl rfl rfl (State.effAddr_mod_congr hj)]
  | ldVxMem x =>
    rw [exec_ldVxMem_eq] at h ⊢
    obtain rfl := Host.Outcome.next.inj h
    refine ⟨_, rfl, ?_⟩
    rw [State.loadRegs_v_congr (s := s) (t := { s with I := j }) rfl rfl rfl (State.effAddr_mod_congr hj)]
  | _ => exact ⟨_, exec_with_index h j rfl, rfl⟩

/-! RET_ADDS_2 (R111): the two machines agree in everything but the entries of the stack, step for step. -/

/-- `s` with RET_ADDS_2 false and other stack entries. -/
def State.withReturnEntries (s : State) (stack : Vector Addr 16) : State :=
  { s with params := { s.params with retAdds2 := false }, stack := stack }

theorem sameButReturnEntries_iff {s s' : State} :
    SameButReturnEntries s s' ↔ s.params.retAdds2 = true ∧ ∃ stack, s' = s.withReturnEntries stack ∧
      ∀ k (h : k < 16), k < s.sp.val → stack[k] = s.stack[k] + 2 := by
  constructor
  · rintro ⟨hr, hs', hentries⟩
    exact ⟨hr, s'.stack, hs', hentries⟩
  · rintro ⟨hr, stack, rfl, hentries⟩
    exact ⟨hr, rfl, hentries⟩

/-- Only RET and CALL have the stack among their parts. -/
theorem stack_mem_writtenBy_iff {i : Instr} : .stack ∈ Part.writtenBy i ↔ i = .ret ∨ ∃ nnn, i = .call nnn := by
  cases i <;> simp [Part.writtenBy]

section
variable {s t : State} {stack : Vector Addr 16} (hr : s.params.retAdds2 = true)
  (hentries : ∀ k (h : k < 16), k < s.sp.val → stack[k] = s.stack[k] + 2)
include hr hentries

/-- A RET: the one machine adds 2 to the entry, and the other finds it 2 higher. -/
theorem exec_ret_withReturnEntries (h : exec .ret s = .next t) :
    ∃ t', exec .ret (s.withReturnEntries stack) = .next t' ∧ SameButReturnEntries t t' := by
  rcases Nat.eq_zero_or_pos s.sp.val with hsp | hsp
  · rw [exec_ret_empty hsp] at h
    obtain rfl := State.raise_next h
    exact ⟨_, exec_ret_empty (s := s.withReturnEntries stack) hsp,
      sameButReturnEntries_iff.mpr ⟨hr, stack, rfl, hentries⟩⟩
  · rw [exec_ret_of_pos hsp] at h
    obtain rfl := State.finish_next h
    have htarget : (s.withReturnEntries stack).returnTarget (stack[s.sp.val - 1]'(by omega)) =
        s.returnTarget (s.stack[s.sp.val - 1]'(by omega)) := by
      have hentry := hentries (s.sp.val - 1) (by omega) (by omega)
      simp [State.returnTarget, State.withReturnEntries, hr, hentry]
    refine ⟨_, exec_ret_of_pos (s := s.withReturnEntries stack) hsp,
      sameButReturnEntries_iff.mpr ⟨hr, stack, ?_, fun k h hk => hentries k h ?_⟩⟩
    · rw [← htarget]
      rfl
    · exact Nat.lt_of_lt_of_le hk (Nat.sub_le _ 1)

/-- A CALL: both machines push, and the entry of the other is 2 higher. -/
theorem exec_call_withReturnEntries {nnn : Addr} (h : exec (.call nnn) s = .next t) :
    ∃ t', exec (.call nnn) (s.withReturnEntries stack) = .next t' ∧ SameButReturnEntries t t' := by
  rcases s.sp_lt_or_full with hsp | hsp
  · rw [exec_call_of_lt nnn hsp] at h
    obtain rfl := State.finish_next h
    refine ⟨_, exec_call_of_lt (s := s.withReturnEntries stack) nnn hsp,
      sameButReturnEntries_iff.mpr ⟨hr, _, rfl, fun k h hk => ?_⟩⟩
    have hk : k < s.sp.val + 1 := hk
    simp only [State.callEntry, State.withReturnEntries, hr, Vector.getElem_set]
    split
    · simp
    · exact hentries k h (by omega)
  · rw [exec_call_full nnn hsp] at h
    obtain rfl := State.raise_next h
    exact ⟨_, exec_call_full (s := s.withReturnEntries stack) nnn hsp,
      sameButReturnEntries_iff.mpr ⟨hr, stack, rfl, hentries⟩⟩

theorem exec_withReturnEntries {i : Instr} (h : exec i s = .next t) :
    ∃ t', exec i (s.withReturnEntries stack) = .next t' ∧ SameButReturnEntries t t' := by
  by_cases hi : .stack ∈ Part.writtenBy i
  · rcases stack_mem_writtenBy_iff.mp hi with rfl | ⟨nnn, rfl⟩
    · exact exec_ret_withReturnEntries hr hentries h
    · exact exec_call_withReturnEntries hr hentries h
  · have hw := exec_writesOnly h
    have hsp : t.sp = s.sp := (congrArg State.sp hw).trans (if_neg hi)
    have hstack : t.stack = s.stack := (congrArg State.stack hw).trans (if_neg hi)
    refine ⟨_, exec_with_returnSetting h false stack hi,
      sameButReturnEntries_iff.mpr ⟨by rw [exec_params h, hr], stack, rfl, ?_⟩⟩
    rw [hsp, hstack]
    exact hentries

end

theorem executePhase_sameButReturnEntries {w : Word} {s s' u : State} (hs : SameButReturnEntries s s')
    (h : executePhase w s = .next u) : ∃ u', executePhase w s' = .next u' ∧ SameButReturnEntries u u' := by
  obtain ⟨hr, stack, rfl, hentries⟩ := sameButReturnEntries_iff.mp hs
  rcases executePhase_cases h with ⟨i, hi, hexec⟩ | ⟨hw, rfl⟩
  · rw [executePhase_of_some _ hi]
    exact exec_withReturnEntries hr hentries hexec
  · rw [executePhase_of_none _ hw]
    exact ⟨_, rfl, sameButReturnEntries_iff.mpr ⟨hr, stack, rfl, hentries⟩⟩

/-- The tick reads and writes the timers and the events alone. -/
theorem State.endStep_withReturnEntries (s : State) (stack : Vector Addr 16) :
    (s.withReturnEntries stack).endStep = s.endStep.withReturnEntries stack := by
  have hsame : ((s.withReturnEntries stack).outcome = .done ∧ (s.withReturnEntries stack).tickEn = true) =
      (s.outcome = .done ∧ s.tickEn = true) := rfl
  unfold State.endStep
  simp only [hsame]
  split
  · rw [State.timerTick_eq, State.timerTick_eq]
    rfl
  · rfl

theorem SameButReturnEntries.endStep {s s' : State} (hs : SameButReturnEntries s s') :
    SameButReturnEntries s.endStep s'.endStep := by
  obtain ⟨hr, stack, rfl, hentries⟩ := sameButReturnEntries_iff.mp hs
  refine sameButReturnEntries_iff.mpr ⟨?_, stack, s.endStep_withReturnEntries stack, ?_⟩
  · rw [State.endStep_eq]
    exact hr
  · rw [State.endStep_eq]
    exact hentries

/-- One step of the simulation. -/
theorem step_sameButReturnEntries {s s' t : State} (hs : SameButReturnEntries s s') (h : step s = .next t) :
    ∃ t', step s' = .next t' ∧ SameButReturnEntries t t' := by
  obtain ⟨hr, stack, rfl, hentries⟩ := sameButReturnEntries_iff.mp hs
  rcases step_cases h with ⟨hf, rfl⟩ | ⟨hf, u, hu, rfl⟩
  · exact ⟨_, step_of_fault (s := s.withReturnEntries stack) hf,
      sameButReturnEntries_iff.mpr ⟨hr, stack, rfl, hentries⟩⟩
  · obtain ⟨u', hu', hrel⟩ := executePhase_sameButReturnEntries hs hu
    exact ⟨_, step_of_executePhase (s := s.withReturnEntries stack) hf hu', hrel.endStep⟩

/-- Settles O28: the relation is a simulation, by induction on the steps. -/
theorem theTwoReturnSettingsAreObservablyEqual : Obligations.TheTwoReturnSettingsAreObservablyEqual := by
  unfold Obligations.TheTwoReturnSettingsAreObservablyEqual
  intro s s' t n hs h
  induction n generalizing s s' with
  | zero =>
    obtain rfl := Host.Outcome.next.inj h
    exact ⟨s', core_run_zero s', hs⟩
  | succ n ih =>
    obtain ⟨u, hu⟩ := exists_step_next s
    obtain ⟨u', hu', hrel⟩ := step_sameButReturnEntries hs hu
    rw [core_run_succ n hu] at h
    rw [core_run_succ n hu']
    exact ih u u' hrel h

end Sys2Proof.Machine
end

section
/-! PROOFS. The memory list as data, and what later instructions and fetches see of a store (R165, R166, R268). -/

namespace Sys2Proof.Machine

/-! Canonical memories are equal when they read alike (log entry 8). -/

/-- The first entry of a canonical list is seen by a read, whatever a list of higher addresses says. -/
theorem Memory.read_head_ne {font : Font} {low k : Nat} {b : Byte} {m m' : Memory}
    (h : Memory.wfFrom font low ((k, b) :: m) = true) (h' : Memory.wfFrom font (k + 1) m' = true) :
    Memory.read font ((k, b) :: m) k ≠ Memory.read font m' k := by
  simp only [Memory.wfFrom, Bool.and_eq_true, decide_eq_true_eq] at h
  rw [Memory.read_below h' (Nat.lt_succ_self k), Memory.read, if_pos rfl]
  exact h.1.2

theorem Memory.wfFrom_cons {font : Font} {low k : Nat} {b : Byte} {m : Memory}
    (h : Memory.wfFrom font low ((k, b) :: m) = true) :
    low ≤ k ∧ k < memSize ∧ Memory.wfFrom font (k + 1) m = true := by
  simp only [Memory.wfFrom, Bool.and_eq_true, decide_eq_true_eq] at h
  exact ⟨h.1.1.1, h.1.1.2, h.2⟩

/-- A canonical list that starts above k, seen from k on. -/
theorem Memory.wfFrom_of_head_gt {font : Font} {low k k' : Nat} {b : Byte} {m : Memory}
    (h : Memory.wfFrom font low ((k', b) :: m) = true) (hk : k < k') :
    Memory.wfFrom font (k + 1) ((k', b) :: m) = true := by
  simp only [Memory.wfFrom, Bool.and_eq_true, decide_eq_true_eq] at h ⊢
  exact ⟨⟨⟨hk, h.1.1.2⟩, h.1.2⟩, h.2⟩

theorem Memory.ext_of_read {font : Font} {low low' : Nat} {m m' : Memory} (h : Memory.wfFrom font low m = true)
    (h' : Memory.wfFrom font low' m' = true)
    (hread : ∀ a, a < memSize → Memory.read font m a = Memory.read font m' a) : m = m' := by
  induction m generalizing low low' m' with
  | nil =>
    cases m' with
    | nil => rfl
    | cons e' m' =>
      obtain ⟨k', b'⟩ := e'
      exact absurd (hread k' (Memory.wfFrom_cons h').2.1).symm (Memory.read_head_ne h' rfl)
  | cons e m ih =>
    obtain ⟨k, b⟩ := e
    obtain ⟨-, hk, hm⟩ := Memory.wfFrom_cons h
    cases m' with
    | nil => exact absurd (hread k hk) (Memory.read_head_ne h rfl)
    | cons e' m' =>
      obtain ⟨k', b'⟩ := e'
      obtain ⟨-, hk', hm'⟩ := Memory.wfFrom_cons h'
      rcases Nat.lt_trichotomy k k' with hlt | rfl | hgt
      · exact absurd (hread k hk) (Memory.read_head_ne h (Memory.wfFrom_of_head_gt h' hlt))
      · have hb : b = b' := by simpa [Memory.read] using hread k hk
        have htail : m = m' := by
          refine ih hm hm' fun a ha => ?_
          by_cases hak : a = k
          · rw [hak, Memory.read_below hm (Nat.lt_succ_self k), Memory.read_below hm' (Nat.lt_succ_self k)]
          · simpa [Memory.read, hak] using hread a ha
        rw [hb, htail]
      · exact absurd (hread k' hk').symm (Memory.read_head_ne h' (Memory.wfFrom_of_head_gt h hgt))

/-- Settles O11: entry by entry, since a canonical list lists just the addresses that read otherwise than unlisted. -/
theorem memoriesThatReadAlikeAreEqual : Obligations.MemoriesThatReadAlikeAreEqual := by
  unfold Obligations.MemoriesThatReadAlikeAreEqual
  exact fun font m m' h h' hread => Memory.ext_of_read h h' hread

/-! Loads and fetches after a store. -/

/-- Settles O41: the load reads each register's byte at the address where the store put it. -/
theorem aBulkLoadGivesBackABulkStore : Obligations.ABulkLoadGivesBackABulkStore := by
  unfold Obligations.ABulkLoadGivesBackABulkStore
  intro s x hmem
  obtain ⟨t, ht, hstored, -⟩ := bulkStoreWritesTheRegisters s x hmem
  refine ⟨t, ht, fun t' hkept hI => ?_⟩
  obtain ⟨u, hu, hloaded, -⟩ := bulkLoadReadsTheRegisters t' x
  refine ⟨u, hu, fun r hr => ?_⟩
  have haddr : t'.effAddr r.toNat = s.effAddr r.toNat := by simp only [State.effAddr, hI]
  rw [hloaded r hr, hkept, haddr, hstored r hr]

/-- The two bytes of the word a step fetches (R80). -/
theorem State.fetchWord_bytes (s : State) : s.fetchWord.extractLsb' 8 8 = s.memRead s.pc.toNat ∧
    s.fetchWord.extractLsb' 0 8 = s.memRead (s.pc.toNat + 1) := by
  have h := bytesOfWord_append (s.memRead s.pc.toNat) (s.memRead (s.pc.toNat + 1))
  simp only [bytesOfWord, List.cons.injEq, and_true] at h
  exact h

/-- A byte stored at address a is seen in the word fetched: high at pc, low at pc + 1 (R51, R268). -/
theorem State.fetchWord_sees (t : State) (a : Nat) :
    (a % 4096 = t.pc.toNat → t.fetchWord.extractLsb' 8 8 = t.memRead a) ∧
    (a % 4096 = (t.pc.toNat + 1) % 4096 → t.fetchWord.extractLsb' 0 8 = t.memRead a) := by
  obtain ⟨hhigh, hlow⟩ := t.fetchWord_bytes
  refine ⟨fun ha => ?_, fun ha => ?_⟩
  · rw [hhigh, ← ha]
    exact t.memRead_mod a
  · rw [hlow, ← t.memRead_mod, ← t.memRead_mod a]
    exact congrArg t.memRead ha.symm

/-- The step executes the word it fetches. -/
theorem step_of_fault_eq_none {t : State} (hf : t.fault = .none) :
    step t = match executePhase t.fetchWord t with
      | .next u => .next u.endStep
      | .fault f => .fault f
      | .refused f => .refused f := by
  obtain ⟨u, hu⟩ := exists_executePhase_next t.fetchWord t
  rw [step_of_executePhase hf hu, hu]

/-- Settles O42: both stores leave each byte at its address, and the next fetch reads it there. -/
theorem aStoreIsSeenByTheNextFetch : Obligations.AStoreIsSeenByTheNextFetch := by
  unfold Obligations.AStoreIsSeenByTheNextFetch
  intro s x hmem
  refine ⟨?_, ?_⟩
  · obtain ⟨t, ht, hstored, -⟩ := bulkStoreWritesTheRegisters s x hmem
    refine ⟨t, ht, fun r hr => ?_, step_of_fault_eq_none⟩
    rw [← hstored r hr]
    exact t.fetchWord_sees _
  · obtain ⟨t, ht, hhundreds, htens, hones, -⟩ := bcdStoresTheThreeDigits s x hmem
    refine ⟨t, ht, fun k hk => ?_, step_of_fault_eq_none⟩
    have hdigit : (t.memRead (s.effAddr k)).toNat =
        [(s.getV x).toNat / 100, (s.getV x).toNat / 10 % 10, (s.getV x).toNat % 10][k] := by
      match k, hk with
      | 0, _ => exact hhundreds
      | 1, _ => exact htens
      | 2, _ => exact hones
    rw [← hdigit]
    obtain ⟨hhigh, hlow⟩ := t.fetchWord_sees (s.effAddr k)
    exact ⟨fun ha => by rw [hhigh ha], fun ha => by rw [hlow ha]⟩

end Sys2Proof.Machine
end

section
/-! PROOFS. CALL and RET (R110, R111, R113) and the offset jump (R118). -/

namespace Sys2Proof.Machine

theorem exec_jpV0 (nnn : Addr) (s : State) :
    exec (.jpV0 nnn) s = s.finish (BitVec.ofNat 12 (nnn.toNat + (s.getV 0).toNat)) := rfl

/-- Settles O23: the target has 12 bits, which is the reduction modulo 4096. -/
theorem theOffsetJumpAddsV0 : Obligations.TheOffsetJumpAddsV0 := by
  unfold Obligations.TheOffsetJumpAddsV0
  intro s nnn
  exact ⟨_, exec_jpV0 nnn s, BitVec.toNat_ofNat _ 12, rfl, memoryKept_finish s _⟩

/-- Settles O24: `exec_call_of_lt`, read at the entry written and at the others. -/
theorem aCallPushesAndJumps : Obligations.ACallPushesAndJumps := by
  unfold Obligations.ACallPushesAndJumps
  intro s nnn h
  refine ⟨_, exec_call_of_lt nnn h, rfl, rfl, Vector.getElem_set_self h, fun k hk hne => ?_, rfl, fun _ => rfl⟩
  exact Vector.getElem_set_ne h hk hne.symm

/-- A return target, as a number: 2 above the entry modulo 4096 with RET_ADDS_2, else the entry itself. -/
theorem State.toNat_returnTarget (s : State) (entry : Addr) :
    (s.returnTarget entry).toNat = (entry.toNat + (if s.params.retAdds2 = true then 2 else 0)) % 4096 := by
  unfold State.returnTarget
  split
  · exact BitVec.toNat_add entry 2
  · exact (Nat.mod_eq_of_lt entry.isLt).symm

/-- Settles O25: `exec_ret_of_pos`, and the target as a number. -/
theorem aReturnPopsAndAddsTwo : Obligations.AReturnPopsAndAddsTwo := by
  unfold Obligations.AReturnPopsAndAddsTwo
  intro s h
  exact ⟨_, exec_ret_of_pos h, rfl, s.toNat_returnTarget _, rfl, fun _ => rfl⟩

/-- Settles O26: the two faults of the stack are raised, which sets FAULT alone. -/
theorem stackFaultsChangeOnlyFault : Obligations.StackFaultsChangeOnlyFault := by
  unfold Obligations.StackFaultsChangeOnlyFault
  exact ⟨fun s nnn h => exec_call_full nnn h, fun s h => exec_ret_empty h⟩

/-- What CALL pushes is what RET returns to pc0 + 2 from, for both settings of RET_ADDS_2. -/
theorem State.returnTarget_callEntry {s t : State} (h : t.params = s.params) :
    t.returnTarget s.callEntry = s.pc + 2 := by
  unfold State.returnTarget State.callEntry
  rw [h]
  split <;> rfl

/-- Settles O27: the RET pops the entry that the CALL pushed. -/
theorem aReturnGoesOnAfterItsCall : Obligations.AReturnGoesOnAfterItsCall := by
  unfold Obligations.AReturnGoesOnAfterItsCall
  intro s nnn hlt
  refine ⟨_, exec_call_of_lt nnn hlt, fun t' hsp hstack hparams => ?_⟩
  have hsp : t'.sp.val = s.sp.val + 1 := congrArg Fin.val hsp
  have hpos : 0 < t'.sp.val := by omega
  have hentry : t'.stack[t'.sp.val - 1]'(by omega) = s.callEntry := by
    simp [hstack, hsp]
  refine ⟨_, exec_ret_of_pos hpos, ?_, ?_⟩
  · rw [hentry]
    exact State.returnTarget_callEntry hparams
  · exact Fin.ext (by simp [hsp])

end Sys2Proof.Machine
end

section
/-! PROOFS. The ALU family, the random byte and the index register (R133 to R146, R162, R163). Each is one register
write, or one with the flag after it, and what those change is said once. -/

namespace Sys2Proof.Machine

/-! What each of these instructions does, as the register writes it consists of. -/

theorem exec_orReg (x y : Reg) (s : State) :
    exec (.orReg x y) s = (s.setV x (s.getV x ||| s.getV y)).finish (s.pc + 2) := rfl
theorem exec_andReg (x y : Reg) (s : State) :
    exec (.andReg x y) s = (s.setV x (s.getV x &&& s.getV y)).finish (s.pc + 2) := rfl
theorem exec_xorReg (x y : Reg) (s : State) :
    exec (.xorReg x y) s = (s.setV x (s.getV x ^^^ s.getV y)).finish (s.pc + 2) := rfl
theorem exec_addReg (x y : Reg) (s : State) : exec (.addReg x y) s =
    ((s.setV x (addMod (s.getV x) (s.getV y))).setFlag (carryOf (s.getV x) (s.getV y))).finish (s.pc + 2) := rfl
theorem exec_subReg (x y : Reg) (s : State) : exec (.subReg x y) s =
    ((s.setV x (subMod (s.getV x) (s.getV y))).setFlag (notBorrowOf (s.getV x) (s.getV y))).finish (s.pc + 2) := rfl
theorem exec_subnReg (x y : Reg) (s : State) : exec (.subnReg x y) s =
    ((s.setV x (subMod (s.getV y) (s.getV x))).setFlag (notBorrowOf (s.getV y) (s.getV x))).finish (s.pc + 2) := rfl
theorem exec_shr (x y : Reg) (s : State) :
    exec (.shr x y) s = ((s.setV x (s.getV x >>> 1)).setFlag (lowBitOf (s.getV x))).finish (s.pc + 2) := rfl
theorem exec_shl (x y : Reg) (s : State) :
    exec (.shl x y) s = ((s.setV x (s.getV x <<< 1)).setFlag (highBitOf (s.getV x))).finish (s.pc + 2) := rfl
theorem exec_rnd (x : Reg) (kk : Byte) (s : State) :
    exec (.rnd x kk) s = (s.drawn.setV x (s.rndByte &&& kk)).finish (s.pc + 2) := rfl
theorem exec_addI (x : Reg) (s : State) : exec (.addI x) s =
    ((s.setI (s.I.toNat + (s.getV x).toNat)).setFlag (indexOverflowOf s.I (s.getV x))).finish (s.pc + 2) := rfl
theorem exec_ldF (x : Reg) (s : State) : exec (.ldF x) s = (s.setI (s.glyphAddr x)).finish (s.pc + 2) := rfl

/-- Settles O30: one write to Vx, whose bits are those of the operation. -/
theorem logicWorksBitByBit : Obligations.LogicWorksBitByBit := by
  unfold Obligations.LogicWorksBitByBit
  intro s x y
  simp only [exec_orReg, exec_andReg, exec_xorReg]
  refine ⟨?_, ?_, ?_⟩
  · obtain ⟨t, ht, hx, hkept⟩ := s.exists_finish_setV_onlyRegisters x (s.getV x ||| s.getV y)
    exact ⟨t, ht, fun k => by rw [hx, BitVec.getLsbD_or], hkept⟩
  · obtain ⟨t, ht, hx, hkept⟩ := s.exists_finish_setV_onlyRegisters x (s.getV x &&& s.getV y)
    exact ⟨t, ht, fun k => by rw [hx, BitVec.getLsbD_and], hkept⟩
  · obtain ⟨t, ht, hx, hkept⟩ := s.exists_finish_setV_onlyRegisters x (s.getV x ^^^ s.getV y)
    exact ⟨t, ht, fun k => by rw [hx, BitVec.getLsbD_xor], hkept⟩

/-! The flag writers (R12, R21). -/

theorem flagByte_eq_ite {f : Bool} {P : Prop} [Decidable P] (h : f = true ↔ P) :
    flagByte f = if P then 1 else 0 := by
  simp only [flagByte, h]

theorem carryOf_iff (a b : Byte) : carryOf a b = true ↔ a.toNat + b.toNat > 255 := decide_eq_true_iff
theorem notBorrowOf_iff (a b : Byte) : notBorrowOf a b = true ↔ a.toNat ≥ b.toNat := decide_eq_true_iff
theorem indexOverflowOf_iff (i : Word) (a : Byte) : indexOverflowOf i a = true ↔ i.toNat + a.toNat > 0xFFF :=
  decide_eq_true_iff

theorem lowBitOf_iff (a : Byte) : lowBitOf a = true ↔ a.toNat % 2 = 1 := by
  simp [lowBitOf, BitVec.getLsbD, Nat.testBit_zero]

theorem highBitOf_iff (a : Byte) : highBitOf a = true ↔ a.toNat ≥ 128 := by
  simp only [highBitOf, BitVec.getLsbD, Nat.testBit_eq_decide_div_mod_eq, decide_eq_true_eq]
  omega

/-- The one argument for every instruction that writes `b` to Vx, then the flag `f`, and completes: VF holds the flag,
also where X is VF (D9), Vx holds `b` elsewhere, and nothing else changes. -/
theorem State.exists_finish_setV_setFlag_onlyRegisters (s : State) (x : Reg) (b : Byte) {f : Bool} {P : Prop}
    [Decidable P] (hf : f = true ↔ P) :
    ∃ t, ((s.setV x b).setFlag f).finish (s.pc + 2) = .next t ∧ t.getV VF = (if P then 1 else 0) ∧
      (x ≠ VF → t.getV x = b) ∧ OnlyRegisters [x, VF] s t := by
  refine ⟨_, rfl, ?_, fun hx => ?_, registersKeptBut_setV_setFlag s x b f, rfl, fun _ => rfl⟩
  · exact (State.getV_setFlag_vf _ f).trans (flagByte_eq_ite hf)
  · exact (State.getV_setFlag_ne _ f hx).trans (State.getV_setV_same s x b)

/-- Settles O31: the sum and then its carry. -/
theorem additionWrapsAndFlagsCarry : Obligations.AdditionWrapsAndFlagsCarry := by
  unfold Obligations.AdditionWrapsAndFlagsCarry
  intro s x y
  obtain ⟨t, ht, hvf, hx, hkept⟩ := s.exists_finish_setV_setFlag_onlyRegisters x (addMod (s.getV x) (s.getV y))
    (carryOf_iff (s.getV x) (s.getV y))
  exact ⟨t, ht, hvf, fun h => by rw [hx h, toNat_addMod], hkept⟩

/-- The difference of R141 is reduced modulo 256. -/
theorem toNat_subMod (a b : Byte) : ((subMod a b).toNat : Int) = ((a.toNat : Int) - b.toNat) % 256 := by
  simp only [subMod, BitVec.toNat_ofInt]
  omega

/-- The one argument for SUB and SUBN, which take their operands in the two orders. -/
theorem State.exists_finish_subtract_onlyRegisters (s : State) (x : Reg) (a b : Byte) :
    ∃ t, ((s.setV x (subMod a b)).setFlag (notBorrowOf a b)).finish (s.pc + 2) = .next t ∧
      t.getV VF = (if a.toNat ≥ b.toNat then 1 else 0) ∧
      (x ≠ VF → ((t.getV x).toNat : Int) = ((a.toNat : Int) - b.toNat) % 256) ∧ OnlyRegisters [x, VF] s t := by
  obtain ⟨t, ht, hvf, hx, hkept⟩ := s.exists_finish_setV_setFlag_onlyRegisters x (subMod a b) (notBorrowOf_iff a b)
  exact ⟨t, ht, hvf, fun h => by rw [hx h, toNat_subMod], hkept⟩

/-- Settles O32: both are the difference and then its NOT borrow. -/
theorem subtractionsWrapAndFlagNotBorrow : Obligations.SubtractionsWrapAndFlagNotBorrow := by
  unfold Obligations.SubtractionsWrapAndFlagNotBorrow
  intro s x y
  simp only [exec_subReg, exec_subnReg]
  exact ⟨s.exists_finish_subtract_onlyRegisters x (s.getV x) (s.getV y),
    s.exists_finish_subtract_onlyRegisters x (s.getV y) (s.getV x)⟩

/-- Settles O33: the shifted Vx and then the bit it lost; Y is not read. -/
theorem shiftsMoveVxByOneAndFlagTheLostBit : Obligations.ShiftsMoveVxByOneAndFlagTheLostBit := by
  unfold Obligations.ShiftsMoveVxByOneAndFlagTheLostBit
  intro s x y
  refine ⟨?_, ?_⟩
  · obtain ⟨t, ht, hvf, hx, hkept⟩ := s.exists_finish_setV_setFlag_onlyRegisters x (s.getV x >>> 1)
      (lowBitOf_iff (s.getV x))
    refine ⟨t, ht, hvf, fun h => ?_, hkept⟩
    rw [hx h, BitVec.toNat_ushiftRight, Nat.shiftRight_eq_div_pow]
  · obtain ⟨t, ht, hvf, hx, hkept⟩ := s.exists_finish_setV_setFlag_onlyRegisters x (s.getV x <<< 1)
      (highBitOf_iff (s.getV x))
    refine ⟨t, ht, hvf, fun h => ?_, hkept⟩
    rw [hx h, BitVec.toNat_shiftLeft, Nat.shiftLeft_eq, Nat.mul_comm]

/-- Settles O34: Vx takes the byte drawn, masked, whichever byte `State.rndByte` answers. -/
theorem randomIsMaskedForEveryByte : Obligations.RandomIsMaskedForEveryByte := by
  unfold Obligations.RandomIsMaskedForEveryByte
  intro s x kk
  refine ⟨fun b rest h => ⟨_, exec_rnd x kk s, ?_, ?_⟩, fun h => ⟨_, exec_rnd x kk s, ?_⟩,
    ⟨_, exec_rnd x kk s, rfl, registersKeptBut_setV s.drawn x _, fun _ => rfl, rfl⟩⟩
  · exact (State.getV_setV_same s.drawn x _).trans (by rw [State.rndByte_cons s b rest h])
  · exact congrArg List.tail h
  · exact (State.getV_setV_same s.drawn x _).trans (by rw [State.rndByte_free s h])

/-! The index register. -/

/-- Settles O36: I is written modulo INDEX_WRAP, and then the flag, which is read off the exact sum. -/
theorem addToIndexWrapsAndFlagsTheTwelveBitOverflow : Obligations.AddToIndexWrapsAndFlagsTheTwelveBitOverflow := by
  unfold Obligations.AddToIndexWrapsAndFlagsTheTwelveBitOverflow
  intro s x
  refine ⟨_, exec_addI x s, State.setI_toNat s _, ?_, registersKeptBut_setFlag (s.setI _) _, rfl, fun _ => rfl⟩
  exact (State.getV_setFlag_vf _ _).trans (flagByte_eq_ite (indexOverflowOf_iff s.I (s.getV x)))

/-- A glyph address is below both readings of INDEX_WRAP, so I takes it unreduced. -/
theorem State.toNat_I_setI_glyphAddr (s : State) (x : Reg) : (s.setI (s.glyphAddr x)).I.toNat = s.glyphAddr x := by
  have hlt : s.glyphAddr x < memSize := by
    simp only [State.glyphAddr, memSize]
    split <;> omega
  rw [State.setI_toNat, Nat.mod_eq_of_lt (hlt.trans_le (IndexWrap.memSize_le_modulus _))]

/-- Settles O37: the two readings of the glyph address, which agree on a digit. -/
theorem fontAddressIsFiveTimesTheDigit : Obligations.FontAddressIsFiveTimesTheDigit := by
  unfold Obligations.FontAddressIsFiveTimesTheDigit
  intro s x
  have hI := s.toNat_I_setI_glyphAddr x
  refine ⟨_, exec_ldF x s, fun hx => hI.trans ?_, fun hp => hI.trans ?_, fun hp => hI.trans ?_, rfl, fun _ => rfl⟩
  · have hdigit : (s.getV x).toNat % 16 = (s.getV x).toNat := Nat.mod_eq_of_lt hx
    rw [State.glyphAddr, hdigit, ite_self, Nat.mul_comm]
  · rw [State.glyphAddr, hp, if_neg Bool.false_ne_true, Nat.mul_comm]
  · rw [State.glyphAddr, if_pos hp, Nat.mul_comm]

end Sys2Proof.Machine
end

section
/-! PROOFS. The display (R181 to R184): DRW flips just the pixels that the sprite covers, so a second draw flips them
back. -/

namespace Sys2Proof.Machine

theorem exec_cls (s : State) : exec .cls s = ({ s with fb := fbBlank, dirty := true }).finish (s.pc + 2) := rfl

/-- Settles O44: the blank framebuffer has no lit pixel. -/
theorem clearTurnsEveryPixelOff : Obligations.ClearTurnsEveryPixelOff := by
  unfold Obligations.ClearTurnsEveryPixelOff
  intro s
  exact ⟨_, exec_cls s, fbPixel_blank, rfl, fun _ => rfl⟩

/-! The sprite that DRW's loops draw is the one of R182. -/

theorem State.rowsCover_spriteRows_iff (s : State) (x y : Reg) (n : Nibble) (px py : Nat) :
    RowsCover (s.spriteRows n.toNat) (s.getV x).toNat (s.getV y).toNat px py ↔ SpriteCovers s x y n px py := by
  have hrow : ∀ r (h : r < (s.spriteRows n.toNat).length), (s.spriteRows n.toNat)[r] = s.memRead (s.I.toNat + r) := by
    intro r h
    simp [State.spriteRows, State.effAddr]
  constructor
  · rintro ⟨r, col, hr, hcol, hbit, hpx, hpy⟩
    rw [hrow] at hbit
    exact ⟨r, col, s.length_spriteRows n.toNat ▸ hr, hcol, hbit, hpx, hpy⟩
  · rintro ⟨r, col, hr, hcol, hbit, hpx, hpy⟩
    have hr' : r < (s.spriteRows n.toNat).length := by rwa [State.length_spriteRows]
    refine ⟨r, col, hr', hcol, ?_, hpx, hpy⟩
    rw [hrow r hr']
    exact hbit

/-- Every pixel after the draw. -/
theorem State.fbPixel_drawSprite (s : State) (x y : Reg) (n : Nibble) (px py : Nat) :
    (SpriteCovers s x y n px py → fbPixel (s.drawSprite x y n).1 px py = !s.pixel px py) ∧
    (¬SpriteCovers s x y n px py → fbPixel (s.drawSprite x y n).1 px py = s.pixel px py) := by
  rw [← s.rowsCover_spriteRows_iff]
  exact drawRows_pixel _ _ _ (s.length_spriteRows_le n) (s.fb, false) px py

/-- The collision of the draw (R182). -/
theorem State.drawSprite_hit_iff (s : State) (x y : Reg) (n : Nibble) :
    (s.drawSprite x y n).2 = true ↔ ∃ px py, SpriteCovers s x y n px py ∧ s.pixel px py = true := by
  have h := drawRows_hit (s.getV x).toNat (s.getV y).toNat _ (s.length_spriteRows_le n) (s.fb, false)
  simp only [Bool.false_eq_true, false_or, s.rowsCover_spriteRows_iff] at h
  exact h

/-- Settles O45: the pixels and the collision of the loops, and VF is written last. -/
theorem drawFlipsExactlyTheSpritesPixels : Obligations.DrawFlipsExactlyTheSpritesPixels := by
  unfold Obligations.DrawFlipsExactlyTheSpritesPixels
  intro s x y n
  refine ⟨_, exec_drw x y n s, fun px py => (s.fbPixel_drawSprite x y n px py).1,
    fun px py => (s.fbPixel_drawSprite x y n px py).2, fun h => ?_, fun h => ?_, registersKeptBut_setFlag _ _, rfl,
    fun _ => rfl⟩
  · exact (State.getV_setFlag_vf _ _).trans (by rw [(s.drawSprite_hit_iff x y n).mpr h]; rfl)
  · have hno : (s.drawSprite x y n).2 = false := Bool.eq_false_iff.mpr (mt (s.drawSprite_hit_iff x y n).mp h)
    exact (State.getV_setFlag_vf _ _).trans (by rw [hno]; rfl)

/-! Drawing twice. -/

/-- A second draw of the sprite at the same place covers the same pixels. -/
theorem SpriteCovers.congr {s t : State} {x y : Reg} (n : Nibble) (hx : t.getV x = s.getV x) (hy : t.getV y = s.getV y)
    (hI : t.I = s.I) (hmem : MemoryKept s t) (px py : Nat) :
    SpriteCovers t x y n px py ↔ SpriteCovers s x y n px py := by
  simp only [SpriteCovers, hx, hy, hI, hmem _]

/-- Settles O47: the second draw flips the same pixels back, so the lit ones it meets are those the first one lit. -/
theorem drawingTwiceErases : Obligations.DrawingTwiceErases := by
  unfold Obligations.DrawingTwiceErases
  intro s x y n hx hy
  obtain ⟨t, ht, hflip, hkeep, -, -, hregs, hframe, hmem⟩ := drawFlipsExactlyTheSpritesPixels s x y n
  obtain ⟨u, hu, hflip', hkeep', hhit, hmiss, -⟩ := drawFlipsExactlyTheSpritesPixels t x y n
  have hcover : ∀ px py, SpriteCovers t x y n px py ↔ SpriteCovers s x y n px py :=
    SpriteCovers.congr n (hregs x (by simpa using hx)) (hregs y (by simpa using hy)) (by rw [hframe]) hmem
  simp only [hcover] at hflip' hkeep' hhit hmiss
  refine ⟨t, u, ht, hu, fb_ext fun px py => ?_, ?_⟩
  · by_cases hc : SpriteCovers s x y n px py
    · exact (hflip' px py hc).trans (by rw [hflip px py hc, Bool.not_not]; rfl)
    · exact (hkeep' px py hc).trans (hkeep px py hc)
  · have hlit : ∀ px py, (SpriteCovers s x y n px py ∧ t.pixel px py = true) ↔
        (s.pixel px py = false ∧ t.pixel px py = true) := by
      intro px py
      by_cases hc : SpriteCovers s x y n px py
      · simp [hc, hflip px py hc]
      · simp [hc, hkeep px py hc]
    simp only [hlit] at hhit hmiss
    refine ⟨fun h => ?_, hhit⟩
    by_contra hno
    rw [hmiss hno] at h
    exact absurd h (by decide)

end Sys2Proof.Machine
end

section
/-! PROOFS. Keys and timers (R201 to R206, R271). -/

namespace Sys2Proof.Machine

theorem exec_ldVxDt (x : Reg) (s : State) : exec (.ldVxDt x) s = (s.setV x s.dt).finish (s.pc + 2) := rfl
theorem exec_ldDtVx (x : Reg) (s : State) :
    exec (.ldDtVx x) s = ({ s with dt := s.getV x }).finish (s.pc + 2) := rfl
theorem exec_ldStVx (x : Reg) (s : State) :
    exec (.ldStVx x) s = ({ s with st := s.getV x }).finish (s.pc + 2) := rfl

/-- Settles O48: up to 15 each is a skip by the key of that number, and above it a fault is raised. -/
theorem keySkipsFollowTheKey : Obligations.KeySkipsFollowTheKey := by
  unfold Obligations.KeySkipsFollowTheKey
  intro s x
  refine ⟨fun k hk => ?_, fun hx => ⟨exec_skp_of_ge hx, exec_sknp_of_ge hx⟩⟩
  have hlt : (s.getV x).toNat < 16 := hk ▸ k.isLt
  have hkey : (⟨(s.getV x).toNat, hlt⟩ : Fin 16) = k := Fin.ext hk
  rw [exec_skp_of_lt hlt, exec_sknp_of_lt hlt, hkey]
  exact ⟨s.exists_skipIf_skipResult Iff.rfl, s.exists_skipIf_skipResult (by simp)⟩

/-- A pressed key below which none is pressed is the operand K (R204). -/
theorem State.leastKey_eq_some {s : State} {k : Fin 16} (hk : s.key k = true) (hlt : ∀ j, j < k → s.key j = false) :
    s.leastKey = some k := by
  cases h : s.leastKey with
  | none => exact absurd (State.leastKey_none.mp h k) (by simp [hk])
  | some j =>
    obtain ⟨hj, hjlt⟩ := State.leastKey_some h
    have hnlt : ¬j < k := fun hlt' => Bool.noConfusion (hj.symm.trans (hlt j hlt'))
    have hngt : ¬k < j := fun hgt => Bool.noConfusion (hk.symm.trans (hjlt k hgt))
    rw [le_antisymm (not_lt.mp hngt) (not_lt.mp hnlt)]

/-- Settles O49: the least key is one register write, and a Blocked step does not tick. -/
theorem theKeyWaitTakesTheLeastKeyOrBlocks : Obligations.TheKeyWaitTakesTheLeastKeyOrBlocks := by
  unfold Obligations.TheKeyWaitTakesTheLeastKeyOrBlocks
  intro s x
  refine ⟨fun k hk hlt => ?_, fun hnone => ?_⟩
  · rw [exec_ldVxK_of_some x (State.leastKey_eq_some hk hlt)]
    obtain ⟨t, ht, hx, hkept⟩ := s.exists_finish_setV_onlyRegisters x (BitVec.ofNat 8 k.val)
    refine ⟨t, ht, ?_, hkept⟩
    rw [hx, BitVec.toNat_ofNat]
    omega
  · have hblock : exec (.ldVxK x) s = .next { s with outcome := .blocked } :=
      exec_ldVxK_of_none x (State.leastKey_none.mpr hnone)
    refine ⟨hblock, fun hf hw => ?_⟩
    rw [step_of_exec hf hw hblock, State.endStep_of_not_done (fun h => StepEnd.noConfusion h)]

/-- Settles O50: each is one copy and completes. -/
theorem timerTransfersCopyOneByte : Obligations.TimerTransfersCopyOneByte := by
  unfold Obligations.TimerTransfersCopyOneByte
  intro s x
  refine ⟨?_, ⟨_, exec_ldDtVx x s, rfl, fun _ => rfl⟩, ⟨_, exec_ldStVx x s, rfl, fun _ => rfl⟩⟩
  rw [exec_ldVxDt]
  exact s.exists_finish_setV_onlyRegisters x s.dt

/-- Settles O51: each transfer ends Done, so the step ends with the tick of the state it led to. -/
theorem theTickFollowsTheTransfer : Obligations.TheTickFollowsTheTransfer := by
  unfold Obligations.TheTickFollowsTheTransfer
  intro s x hf htick
  refine ⟨fun hw => ⟨_, step_of_exec hf hw (exec_ldVxDt x s), ?_, ?_⟩,
    fun hw => ⟨_, step_of_exec hf hw (exec_ldDtVx x s), ?_⟩,
    fun hw => ⟨_, step_of_exec hf hw (exec_ldStVx x s), ?_, ?_⟩⟩
  · rw [State.endStep_eq]
    exact State.getV_setV_same s x s.dt
  · rw [State.toNat_dt_endStep]
    simp [htick]
  · rw [State.toNat_dt_endStep]
    simp [htick]
  · rw [State.toNat_st_endStep]
    simp [htick]
  · have hone : s.getV x = 1#8 ↔ (s.getV x).toNat = 1 := BitVec.toNat_inj.symm
    rw [State.events_endStep]
    simp [htick, hone]

end Sys2Proof.Machine
end
